-- ==== Sys2Proof/Word.lean ====
section
/-!
DEFINITION. The word types of the SHA-1 digest engine core (00_scope.md R4, section 6.1): bytes, 32-bit words,
the 64-bit counter word, the 64-byte block and the 20-byte digest. All words are unsigned.
-/
namespace Sys2Proof

/-- A byte, 8 bits (00_scope.md section 6.1). -/
abbrev Byte := BitVec 8

/-- A word, `WORD_W = 32` bits (R4). -/
abbrev Word := BitVec 32

/-- The width of the bit-length counter, `COUNT_W = 64` bits (R4). -/
abbrev DWord := BitVec 64

/-- A full block: exactly `BLOCK_BYTES = 64` bytes (R4, R70, R124). -/
abbrev Block := Vector Byte 64

/-- A digest: an opaque value of exactly `DIGEST_BYTES = 20` bytes (R4, R22). -/
abbrev Digest := Vector Byte 20

end Sys2Proof
end

