-- ==== Sys2Proof/Machine/Operands.lean ====
section
/-!
DEFINITION. Operand forms: byte order, sign extension and the views of a block (20_memory.md R40 to R44,
30_encoding.md R73, 40_datapath_primitives.md R107, R109). Every multi-byte quantity is big-endian (R40).
-/
namespace Sys2Proof.Machine

/-- `BE32(b0, b1, b2, b3)` (R107): four bytes to a word, the first the most significant. (The powers stand on the left
of their products, so that no proof checker counts one down.) -/
def be32 (b0 b1 b2 b3 : Byte) : Word :=
  BitVec.ofNat 32 (2 ^ 24 * b0.toNat + 2 ^ 16 * b1.toNat + 2 ^ 8 * b2.toNat + b3.toNat)

/-- `BYTES32(w)` (R109): a word as four bytes, most significant first. -/
def bytes32 (w : Word) : List Byte :=
  [w.extractLsb' 24 8, w.extractLsb' 16 8, w.extractLsb' 8 8, w.extractLsb' 0 8]

/-- `BYTES64(v)` (R109): a 64-bit value as eight bytes, most significant first. -/
def bytes64 (v : DWord) : List Byte :=
  [v.extractLsb' 56 8, v.extractLsb' 48 8, v.extractLsb' 40 8, v.extractLsb' 32 8,
   v.extractLsb' 24 8, v.extractLsb' 16 8, v.extractLsb' 8 8, v.extractLsb' 0 8]

/-- `sext_32` (R73, 00_scope.md section 6.2): the two's complement reading of the raw `len` field. -/
def sextLen (raw : Word) : Int :=
  if raw.toNat < 2 ^ 31 then (raw.toNat : Int) else (raw.toNat : Int) - 2 ^ 32

/-- A sequence of bytes as a block, when it has exactly 64 bytes (R14, R70, R140). -/
def blockOf? (l : List Byte) : Option Block :=
  if h : l.length = 64 then some ⟨l.toArray, by simpa using h⟩ else none

/-- `MemRead(addr, n)` on a full block (R43): `n` bytes from index `addr` as one big-endian unsigned number, byte
`addr` the most significant. Defined only for `addr + n <= 64`; the design uses `n` in 1, 4, 8. -/
def memRead (blk : Block) (addr n : Nat) : addr + n ≤ 64 → Nat :=
  fun h => (List.finRange n).foldl (fun acc k => 256 * acc + (blk[addr + k.val]'(by omega)).toNat) 0

/-- The full 64-byte blocks of a message, in order (42_update.md R143, "the (n div 64) full 64-byte blocks of M"). -/
def fullBlocks (m : List Byte) : List Block :=
  (List.range (m.length / 64)).filterMap fun k => blockOf? ((m.drop (64 * k)).take 64)

/-- The bytes after the last full block (R143, "the last (n mod 64) bytes of M"). -/
def tailBytes (m : List Byte) : List Byte := m.drop (64 * (m.length / 64))

end Sys2Proof.Machine
end

