-- ==== Sys2Proof/Config.lean ====
section
/-!
DEFINITION. What an implementation fixes, and the free values. The parameters are those of 00_scope.md R4 and R5.
The free values stand for what 60_exceptions.md R184 leaves unspecified after a fault; they have no body, so no proof
can learn one (notes/assumptions/2.md).
-/
namespace Sys2Proof.Config

/-- `LEN_W` (R5): the width of the signed `len` field of UPDATE. -/
def lenBits : Nat := 32

/-- `IV0` (R4, R30): the reset value of `h0`. -/
def iv0 : Word := 0x67452301#32
/-- `IV1` (R4, R30): the reset value of `h1`. -/
def iv1 : Word := 0xEFCDAB89#32
/-- `IV2` (R4, R30): the reset value of `h2`. -/
def iv2 : Word := 0x98BADCFE#32
/-- `IV3` (R4, R30): the reset value of `h3`. -/
def iv3 : Word := 0x10325476#32
/-- `IV4` (R4, R30): the reset value of `h4`. -/
def iv4 : Word := 0xC3D2E1F0#32

/-- FREE VALUE (R184, notes/assumptions/2.md): the word in chaining register `h_j` after the fault number `k`;
the first argument is `k`, the second `j`. -/
opaque freeH : Nat → Nat → Word

/-- FREE VALUE (R184, notes/assumptions/2.md): the bit counter after the fault number `k`. -/
opaque freeCount : Nat → DWord

/-- FREE VALUE (R184, notes/assumptions/2.md): the buffer's bytes after the fault number `k`. -/
opaque freeBuf : Nat → List Byte

/-- FREE VALUE (R184, notes/assumptions/2.md): the fill count after the fault number `k`. -/
opaque freeFill : Nat → Fin 64

end Sys2Proof.Config
end

