-- ==== Sys2Proof/Syntax.lean ====
section
/-!
DEFINITION. The command set (30_encoding.md R70), one constructor per row of spec/opcode_table.json. The host's commands
are this hardware's instructions.
-/
namespace Sys2Proof

/-- A host command (R70, "Cmd"). -/
inductive Instr where
  /-- BLOCK(B), opcode 0x01: `b` is the payload, exactly 64 bytes (R70, R125). -/
  | block (b : Block)
  /-- UPDATE(len, D), opcode 0x02: `len` is the signed length field, `d` is EVERY byte the host actually supplied
  after it, the bytes of following commands included (R70, R77, R141). -/
  | update (len : Int) (d : List Byte)
  /-- FINALIZE, opcode 0x03 (R150). -/
  | finalize
  /-- RESET, opcode 0x04 (R165). -/
  | reset
  deriving DecidableEq, Repr

end Sys2Proof
end

