-- ==== Sys2Proof/WellFormed.lean ====
section
/-!
DEFINITION. Which commands the encoding of 30_encoding.md can express. A BLOCK payload has 64 bytes by its type (R70);
the `len` field of UPDATE holds a two's complement number of `LEN_W` bits (R73). A negative or too large `len` is well
formed: it decodes, and faults when it executes (R75, R77).
-/
namespace Sys2Proof

/-- The least value of the `len` field: `-2^31` (R73). -/
def minLen : Int := -2 ^ (Config.lenBits - 1)

/-- The greatest value of the `len` field: `2^31 - 1` (R73). -/
def maxLen : Int := 2 ^ (Config.lenBits - 1) - 1

/-- `len` is a value of the signed field (R73). -/
def lenOk (len : Int) : Bool := decide (minLen ≤ len) && decide (len ≤ maxLen)

/-- The command is one the encoding of R71 can express. -/
def Instr.wf : Instr → Bool
  | .block _ => true
  | .update len _ => lenOk len
  | .finalize => true
  | .reset => true

end Sys2Proof
end

