-- ==== Sys2Proof/Decode.lean ====
section
/-!
DEFINITION. The decoder (30_encoding.md R71 to R78), total on any bytes and rejecting by name, and after it the encoder.
The opcode bytes are those of R74. Decoding looks at the bytes from the offset `pos` of the next command on; which
fault a rejected command raises depends on the phase too and is settled by Machine.decodeFault (R193).
-/
namespace Sys2Proof

/-- The four opcodes the decoder can find in an opcode byte (R77, "DecodeOp"). -/
inductive Op where
  | block
  | update
  | finalize
  | reset
  deriving DecidableEq, Repr

/-- What the decoder answers. -/
inductive Decoded where
  /-- A command. -/
  | ok (i : Instr)
  /-- No byte is left: the stream is exhausted, which is no error (R78). -/
  | empty
  /-- The opcode byte `x` selects no command (R75). -/
  | illegal (x : Byte)
  /-- The stream ends inside the operands of `op` (R77, "LengthError"). -/
  | short (op : Op)
  deriving DecidableEq, Repr

/-- `DecodeOp(x)` (R74, R77): all eight bits are significant; every other byte is illegal. -/
def decodeOp (x : Byte) : Option Op :=
  if x = 0x01#8 then some .block
  else if x = 0x02#8 then some .update
  else if x = 0x03#8 then some .finalize
  else if x = 0x04#8 then some .reset
  else none

/-- The operands of BLOCK (R77): the 64 bytes after the opcode, or a length error. -/
def decodeBlock (rest : List Byte) : Decoded :=
  match Machine.blockOf? (rest.take 64) with
  | some b => .ok (.block b)
  | none => .short .block

/-- The operands of UPDATE (R73, R77): the big-endian signed length, then every byte that is left. -/
def decodeUpdate : List Byte → Decoded
  | b0 :: b1 :: b2 :: b3 :: d => .ok (.update (Machine.sextLen (Machine.be32 b0 b1 b2 b3)) d)
  | _ => .short .update

/-- `DecodeOperands` (R77) for the bytes after the opcode. -/
def decodeOperands (op : Op) (rest : List Byte) : Decoded :=
  match op with
  | .block => decodeBlock rest
  | .update => decodeUpdate rest
  | .finalize => .ok .finalize
  | .reset => .ok .reset

/-- Decode the command at the front of the bytes not yet consumed (R77, R78). -/
def decode : List Byte → Decoded
  | [] => .empty
  | x :: rest =>
    match decodeOp x with
    | some op => decodeOperands op rest
    | none => .illegal x

/-! ## The encoder, from the same table (R71, R74, R79) -/

/-- The opcode byte of a command (R74). -/
def opcodeByte : Instr → Byte
  | .block _ => 0x01#8
  | .update _ _ => 0x02#8
  | .finalize => 0x03#8
  | .reset => 0x04#8

/-- The operand bytes of a command (R71): the block; the 4-byte length and the data supplied; none. -/
def operandBytes : Instr → List Byte
  | .block b => b.toList
  | .update len d => Machine.bytes32 (BitVec.ofInt 32 len) ++ d
  | .finalize => []
  | .reset => []

/-- The bytes of a command (R71, R79). -/
def encode (i : Instr) : List Byte := opcodeByte i :: operandBytes i

/-- The command as the decoder sees it when more bytes follow it in the stream: they belong to `D` of an UPDATE
(R77, "every byte the host actually supplied"). -/
def Instr.withRest (rest : List Byte) : Instr → Instr
  | .update len d => .update len (d ++ rest)
  | i => i

/-- The encoded length of a command in bytes (R72): what `pos` advances by when it completes (R26). -/
def encodedLength : Instr → Nat
  | .block _ => 65
  | .update len _ => 5 + len.toNat
  | .finalize => 1
  | .reset => 1

/-- UPDATE in the assembler's short form: `len` is the number of bytes given (R79). -/
def Instr.updateBytes (d : List Byte) : Instr := .update d.length d

/-- The bytes of a sequence of commands, back to back, with no padding between them (R72, R79). -/
def assemble (cs : List Instr) : List Byte := cs.flatMap encode

/-! ## The opcode table's words -/

/-- The bytes of the table word `w` of `nbits` bits, the first byte its least significant one, then zeros up to the
65 bytes of the longest command with a fixed length (R72; notes/assumptions/11.md). -/
def tableBytes (nbits w : Nat) : List Byte :=
  let n := (nbits + 7) / 8
  (List.range n).map (fun k => BitVec.ofNat 8 (w % 2 ^ nbits / 2 ^ (8 * k))) ++ List.replicate (65 - n) 0#8

/-- The instruction the decoder reads from the table word `w` of `nbits` bits. -/
def decodeTableWord (nbits w : Nat) : Option Instr :=
  match decode (tableBytes nbits w) with
  | .ok i => some i
  | _ => none

end Sys2Proof
end

