-- ==== Sys2Proof/Machine/Datapath.lean ====
section
/-!
DEFINITION. The datapath primitives (40_datapath_primitives.md R100 to R106, 30_encoding.md R76): rotate-left, the
logical-function multiplexer, the round-constant multiplexer and the modular adders. None sets a flag, none faults
(R110). The spec supplies the functions and constants from general knowledge of SHA-1 (93 G1 to G5) and makes them rules.
-/
namespace Sys2Proof.Machine

/-- `ROTL_n(x)` for `0 < n < 32` (R100). The amounts used are 1, 5 and 30 (R101). -/
def rotl (n : Nat) (x : Word) : Word := (x <<< n) ||| (x >>> (32 - n))

/-- `fsel = t div 20` (R76). -/
def fsel (t : Fin 80) : Fin 4 := ⟨t.val / 20, by omega⟩

/-- The logical-function multiplexer `F(fsel, b, c, d)` (R103): Ch, Parity, Maj, Parity. -/
def fMux (f : Fin 4) (b c d : Word) : Word :=
  match f with
  | 0 => (b &&& c) ||| (~~~b &&& d)
  | 1 => b ^^^ c ^^^ d
  | 2 => (b &&& c) ||| (b &&& d) ||| (c &&& d)
  | 3 => b ^^^ c ^^^ d

/-- The round-constant multiplexer `K(fsel)` (R104). -/
def kMux (f : Fin 4) : Word :=
  match f with
  | 0 => 0x5A827999#32
  | 1 => 0x6ED9EBA1#32
  | 2 => 0x8F1BBCDC#32
  | 3 => 0xCA62C1D6#32

/-- `ADD32(x1, ..., xk)` (R105): the sum modulo `2^32`, its carry discarded. -/
def add32 (xs : List Word) : Word := BitVec.ofNat 32 (xs.map BitVec.toNat).sum

/-- `ADD64(x, y)` (R106): the sum modulo `2^64`, its carry discarded. -/
def add64 (x y : DWord) : DWord := BitVec.ofNat 64 (x.toNat + y.toNat)

end Sys2Proof.Machine
end

