-- ==== Sys2Proof/Machine/State.lean ====
section
/-!
DEFINITION. The state of one instance of the block (10_state.md R10 to R30), its reset value, and the named reasons a
step can stop. State is plain data. The hidden registers `a..e, T, W, t, pstate, L` are no part of the command-level
state (R10, R12, R13, R23, R24): they are local to the meanings and are fields of the structures of Machine/Micro.lean.
-/
namespace Sys2Proof.Machine

/-- The chaining registers `h0..h4`, five words (R11). -/
structure Chain where
  h0 : Word
  h1 : Word
  h2 : Word
  h3 : Word
  h4 : Word
  deriving DecidableEq, Repr

/-- The phase register (R18). The value 3 is never produced and cannot be written down. -/
inductive Phase where
  | ready
  | done
  | fault
  deriving DecidableEq, Repr

/-- The fault code register (R19). -/
inductive FaultCode where
  | none
  | usage
  | length
  | illegal
  deriving DecidableEq, Repr

/-- The state at a command boundary (R10, R26, R78). `pos` stands first and `h` last: two states that differ are then
told apart by their small fields, before Lean compares a compression with the value it started from. -/
structure State where
  /-- Offset in the current stream of the first byte not yet consumed (R26). -/
  pos : Nat
  /-- Total bit-length counter, modulo `2^64` (R16). -/
  count : DWord
  /-- Pending-block buffer, oldest byte first; bytes at indices `>= fill` do not exist (R14). -/
  buf : List Byte
  /-- Fill count, 0..63 at a command boundary (R15); equal to `|buf|` outside phase FAULT (Memory.wf). -/
  fill : Fin 64
  /-- READY, DONE or FAULT (R18). -/
  phase : Phase
  /-- The code of the first fault since hardware reset (R19). -/
  faultCode : FaultCode
  /-- The command stream being executed, a finite list of bytes (R28, R77, R78). -/
  stream : List Byte
  /-- The streams the host has submitted behind it, in order (R50 item 1, R78). -/
  pending : List (List Byte)
  /-- The digests delivered so far, in order (`out` of R78; R156). -/
  out : List Digest
  /-- The hardware-reset input, sampled at a command boundary (R28, R210). -/
  rst : Bool
  /-- The MODEL's own field: the index of the next free value (R184; notes/assumptions/2.md). -/
  freeIdx : Nat
  /-- Chaining registers `h0..h4` (R11). -/
  h : Chain
  deriving DecidableEq, Repr

/-- Why a step stops. -/
inductive Fault where
  /-- Raised by `step` and by every command in phase FAULT without `rst`: no byte is taken and nothing executes
  until hardware reset (R185, R196, 93 U13 "stuck"). SAFE: the model stops where the hardware holds its state
  (notes/assumptions/3.md). -/
  | sticky (code : FaultCode)
  deriving DecidableEq, Repr

/-- Why an instruction has no meaning. -/
inductive Refusal where
  /-- Raised by a command that has no meaning yet; every command has one, so nothing raises it. SAFE. -/
  | notModelled (mnemonic : String)
  deriving DecidableEq, Repr

/-- What a meaning answers. -/
abbrev Answer := Host.Outcome State Fault Refusal

/-- The chaining registers' initial values `IV` (R4, R30). -/
def Chain.iv : Chain := ⟨Config.iv0, Config.iv1, Config.iv2, Config.iv3, Config.iv4⟩

/-- The buffer's canonical form (R14, R15): the sequence `buf` has exactly `fill` bytes. This hardware has no
address-keyed memory (R28); the buffer is the storage its commands write. -/
def Memory.wf (buf : List Byte) (fill : Fin 64) : Bool := buf.length == fill.val

/-- The state right after hardware reset (R30). No stream has been submitted yet (notes/assumptions/4.md). -/
def State.reset : State where
  h := Chain.iv
  count := 0#64
  buf := []
  fill := 0
  phase := .ready
  faultCode := .none
  pos := 0
  stream := []
  pending := []
  out := []
  rst := false
  freeIdx := 0

end Sys2Proof.Machine
end

