-- ==== Sys2Proof/Machine/Compress.lean ====
section
/-!
DEFINITION. The block-to-word converter (40_datapath_primitives.md R108), the message schedule, the round and the
compression function (41_compress_block.md R120 to R124). The working registers and the schedule are local values
(10_state.md R12, R13).
-/
namespace Sys2Proof.Machine

/-- The working registers `a, b, c, d, e` (R12). -/
structure Work where
  a : Word
  b : Word
  c : Word
  d : Word
  e : Word
  deriving DecidableEq, Repr

/-- The message schedule file `W[0..79]` (R13). -/
abbrev Sched := Vector Word 80

/-- The word at word index `i` of a full block, big-endian (R42, R108). -/
def blockWord (blk : Block) (i : Fin 16) : Word :=
  be32 blk[4 * i.val] blk[4 * i.val + 1] blk[4 * i.val + 2] blk[4 * i.val + 3]

/-- One word of the converter: `W[i] <- BE32(B[4i..4i+3])` (R108). -/
def loadWord (blk : Block) (w : Sched) (i : Fin 16) : Sched := w.set i.val (blockWord blk i)

/-- The block-to-word converter writes `W[0..15]` (R108). -/
def convert (blk : Block) (w : Sched) : Sched := (List.finRange 16).foldl (loadWord blk) w

/-- One step of the expansion, for `t = i + 16`:
`W[t] <- ROTL_1(W[t-3] XOR W[t-8] XOR W[t-14] XOR W[t-16])` (R120). -/
def expandWord (w : Sched) (i : Fin 64) : Sched :=
  w.set (i.val + 16) (rotl 1 (w[i.val + 13] ^^^ w[i.val + 8] ^^^ w[i.val + 2] ^^^ w[i.val]))

/-- The schedule expansion, in increasing `t` (R120). -/
def expand (w : Sched) : Sched := (List.finRange 64).foldl expandWord w

/-- All 80 schedule words of a block. `w0` is what the file held before, every word of which is overwritten before it
is read (R13, R166; notes/assumptions/8.md). -/
def scheduleFrom (w0 : Sched) (blk : Block) : Sched := expand (convert blk w0)

/-- The message schedule of a block (R120). -/
def schedule (blk : Block) : Sched := scheduleFrom (Vector.replicate 80 0#32) blk

/-- The round sum `T` (R123). -/
def roundSum (w : Sched) (r : Work) (t : Fin 80) : Word :=
  add32 [rotl 5 r.a, fMux (fsel t) r.b r.c r.d, r.e, kMux (fsel t), w[t.val]]

/-- The register shift of a round, every right-hand side the value before it (R123). -/
def shiftWork (r : Work) (sum : Word) : Work := ⟨sum, r.a, rotl 30 r.b, r.c, r.d⟩

/-- Round `t` (R123). -/
def sha1Round (w : Sched) (r : Work) (t : Fin 80) : Work := shiftWork r (roundSum w r t)

/-- The working registers take the chaining values (R122). -/
def loadWork (h : Chain) : Work := ⟨h.h0, h.h1, h.h2, h.h3, h.h4⟩

/-- Rounds 0 to 79, in order (R123, R124). -/
def rounds (w : Sched) (r : Work) : Work := (List.finRange 80).foldl (sha1Round w) r

/-- The feed-forward addition (R124). -/
def feedForward (h : Chain) (r : Work) : Chain :=
  ⟨add32 [h.h0, r.a], add32 [h.h1, r.b], add32 [h.h2, r.c], add32 [h.h3, r.d], add32 [h.h4, r.e]⟩

/-- `Compress(H, B)` (R124). -/
def compress (h : Chain) (blk : Block) : Chain := feedForward h (rounds (schedule blk) (loadWork h))

/-- `fold Compress` over blocks, in order (R143, R157). -/
def compressAll (h : Chain) (blks : List Block) : Chain := blks.foldl compress h

end Sys2Proof.Machine
end

