-- ==== Sys2Proof/Machine/Ops.lean ====
section
/-!
DEFINITION. The named operations over the state: absorbing bytes (42_update.md R140), the padding sequence
(43_finalize.md R151), the digest serializer (R156), raising a fault (60_exceptions.md R184), hardware reset
(70_reset_and_hazards.md R210), and the reading of the command stream (30_encoding.md R77, R78).
-/
namespace Sys2Proof.Machine

/-! ## Storage -/

/-- `Absorb(x)` (R140): append at the fill index; a full block is compressed at once and the buffer cleared. The test
`fill = 64` is made on the sequence itself, which has `fill` bytes (R15; notes/assumptions/7.md). `count` is untouched. -/
def absorb (x : Byte) (s : State) : State :=
  match blockOf? (s.buf ++ [x]) with
  | some blk => { s with h := compress s.h blk, buf := [], fill := 0 }
  | none => { s with buf := s.buf ++ [x], fill := s.fill + 1 }

/-- `Absorb` of each byte, in order (R50 item 3, R141, R150). -/
def absorbAll (xs : List Byte) (s : State) : State := xs.foldl (fun t x => absorb x t) s

/-- `MemWrite(fill, 1, v)` (R44): the byte through `Absorb`. -/
def memWrite1 (v : Byte) (s : State) : State := absorb v s

/-- `MemWrite(fill, 8, v)` (R44): eight bytes through `Absorb`, most significant first. -/
def memWrite8 (v : DWord) (s : State) : State := absorbAll (bytes64 v) s

/-- `count <- ADD64(count, 8 * len)` (R106, R141). -/
def addCount (len : Nat) (s : State) : State := { s with count := add64 s.count (BitVec.ofNat 64 (8 * len)) }

/-- The command completes: `pos` moves past its bytes (R26, R72). -/
def advance (n : Nat) (s : State) : State := { s with pos := s.pos + n }

/-- The `init()` values of the data state, and phase READY (R165, R210). -/
def initValues (s : State) : State :=
  { s with h := Chain.iv, count := 0#64, buf := [], fill := 0, phase := .ready }

/-! ## Padding and the digest -/

/-- `z = (55 - fill) mod 64`, the number of zero bytes of the padding (R151). -/
def padZeros (fill : Fin 64) : Nat := ((55 - (fill.val : Int)) % 64).toNat

/-- `Pad(fill, L)` (R151). -/
def pad (fill : Fin 64) (len : DWord) : List Byte :=
  0x80#8 :: (List.replicate (padZeros fill) 0x00#8 ++ bytes64 len)

/-- The digest serializer (R156): `h0..h4` as 20 bytes, most significant byte first per word. -/
def serialize (h : Chain) : Digest :=
  ⟨(bytes32 h.h0 ++ bytes32 h.h1 ++ bytes32 h.h2 ++ bytes32 h.h3 ++ bytes32 h.h4).toArray, rfl⟩

/-- Deliver the digest to the host and enter DONE (R150, R156). -/
def deliver (s : State) : State := { s with out := s.out ++ [serialize s.h], phase := .done }

/-- `X < Y` for digests (R22): at the first index where they differ, the byte of `X` is the smaller. -/
def digestLt (x y : Digest) : Bool := go x.toList y.toList
where
  go : List Byte → List Byte → Bool
  | a :: as, b :: bs => if a = b then go as bs else decide (a.toNat < b.toNat)
  | _, _ => false

/-! ## Faults and hardware reset -/

/-- `raise Fault(code)` (R184): the phase becomes FAULT, the code is recorded, `h`, `count`, `buf` and `fill` become
unspecified (free values, notes/assumptions/2.md), nothing is delivered and `pos` stays at the opcode byte. -/
def raise (code : FaultCode) (s : State) : State :=
  { s with
    phase := .fault
    faultCode := code
    h := ⟨Config.freeH s.freeIdx 0, Config.freeH s.freeIdx 1, Config.freeH s.freeIdx 2,
          Config.freeH s.freeIdx 3, Config.freeH s.freeIdx 4⟩
    count := Config.freeCount s.freeIdx
    buf := Config.freeBuf s.freeIdx
    fill := Config.freeFill s.freeIdx
    freeIdx := s.freeIdx + 1 }

/-- The answer in phase FAULT (R185): nothing executes; the state is stuck until hardware reset
(notes/assumptions/3.md). -/
def stuck (s : State) : Answer := .fault (.sticky s.faultCode)

/-- Hardware reset (R210): `init()`, phase READY, no fault, the rest of the current stream discarded, `pos` 0 for the
next stream, the `rst` event consumed. Streams not begun and digests already delivered stand (R220;
notes/assumptions/5.md, notes/assumptions/6.md). It is the only way out of FAULT (R186). -/
def hardwareReset (s : State) : State :=
  { initValues s with faultCode := .none, pos := 0, stream := [], rst := false }

/-- Run a command that is legal in phase READY only (R181, R185, R196). -/
def whenReady (act : State → Answer) (s : State) : Answer :=
  match s.phase with
  | .ready => act s
  | .done => .next (raise .usage s)
  | .fault => stuck s

/-- Run a command that is legal in READY and DONE (R165, R185, R196). -/
def whenAlive (act : State → Answer) (s : State) : Answer :=
  match s.phase with
  | .ready => act s
  | .done => act s
  | .fault => stuck s

/-! ## The command stream -/

/-- The bytes not yet consumed, from the opcode byte at `pos` on (R26, R77). -/
def fetch (s : State) : List Byte := s.stream.drop s.pos

/-- The stream is exhausted, which is no error (R78): the block waits with its state held, and goes on with the next
stream the host has submitted, at `pos` 0 (notes/assumptions/4.md). -/
def endOfStream (s : State) : State :=
  match s.pending with
  | [] => s
  | q :: qs => { s with stream := q, pos := 0, pending := qs }

/-- The fault of a command whose operands are short (R193): USAGE in phase DONE, LENGTH otherwise. -/
def shortFault : Phase → FaultCode
  | .done => .usage
  | _ => .length

/-- Which fault a command that does not decode raises, in the order of R78 and R193: an illegal opcode in any phase;
then, for operands that are short, USAGE in phase DONE and LENGTH in READY. -/
def decodeFault (illegal : Bool) (p : Phase) : FaultCode :=
  if illegal then .illegal else shortFault p

/-- The host submits a stream behind those already submitted (R50 item 1, R78). -/
def submit (bytes : List Byte) (s : State) : State := { s with pending := s.pending ++ [bytes] }

/-- The host asserts `rst` (R210). -/
def assertRst (s : State) : State := { s with rst := true }

end Sys2Proof.Machine
end

