-- ==== Sys2Proof/Machine/Block.lean ====
section
/-!
DEFINITION. The meaning of BLOCK (41_compress_block.md R125).
-/
namespace Sys2Proof.Machine

/-- The effect of BLOCK in phase READY: `h <- Compress(h, B)`; `count`, `buf`, `fill`, `phase`, `fault_code` unchanged
(R125). -/
def blockEffect (b : Block) (s : State) : State := advance 65 { s with h := compress s.h b }

/-- BLOCK (R125): USAGE in phase DONE (R181). -/
def execBlock (b : Block) (s : State) : Answer := whenReady (fun t => .next (blockEffect b t)) s

end Sys2Proof.Machine
end

