-- ==== Sys2Proof/Machine/Finalize.lean ====
section
/-!
DEFINITION. The meaning of FINALIZE (43_finalize.md R150).
-/
namespace Sys2Proof.Machine

/-- The effect of FINALIZE in phase READY (R150): absorb `Pad(fill, count)`, deliver the digest, enter DONE; `count` is
not changed. -/
def finalizeEffect (s : State) : State := advance 1 (deliver (absorbAll (pad s.fill s.count) s))

/-- FINALIZE (R150): USAGE in phase DONE (R181). -/
def execFinalize (s : State) : Answer := whenReady (fun t => .next (finalizeEffect t)) s

end Sys2Proof.Machine
end

