-- ==== Sys2Proof/Machine/Reset.lean ====
section
/-!
DEFINITION. The meaning of RESET (44_reset_and_pseudo.md R165).
-/
namespace Sys2Proof.Machine

/-- The effect of RESET (R165): the `init()` values and phase READY; `fault_code` unchanged. -/
def resetEffect (s : State) : State := advance 1 (initValues s)

/-- RESET (R165): legal in READY and DONE, not executed in FAULT (R185). -/
def execReset (s : State) : Answer := whenAlive (fun t => .next (resetEffect t)) s

end Sys2Proof.Machine
end

