-- ==== Sys2Proof/Machine/Update.lean ====
section
/-!
DEFINITION. The meaning of UPDATE (42_update.md R141).
-/
namespace Sys2Proof.Machine

/-- The effect of UPDATE when `0 <= len <= |D|`: absorb the first `len` bytes of `D`, then advance the counter by
`8 * len` (R141). -/
def updateEffect (len : Nat) (d : List Byte) (s : State) : State :=
  advance (5 + len) (addCount len (absorbAll (d.take len) s))

/-- UPDATE (R141): USAGE in phase DONE, even when `len = 0` (R181); LENGTH when `len < 0` or `len > |D|` (R182), both
tested before the first byte is absorbed. -/
def execUpdate (len : Int) (d : List Byte) (s : State) : Answer :=
  whenReady (fun t =>
    if len < 0 then .next (raise .length t)
    else if (d.length : Int) < len then .next (raise .length t)
    else .next (updateEffect len.toNat d t)) s

end Sys2Proof.Machine
end

