-- ==== Sys2Proof/Machine/Dispatch.lean ====
section
/-!
DEFINITION. One arm per command: the meaning each constructor of Instr has.
-/
namespace Sys2Proof.Machine

/-- The answer of one command in one state. -/
def exec (i : Instr) (s : State) : Host.Outcome State Fault Refusal :=
  match i with
  | .block b => Sys2Proof.Machine.execBlock b s
  | .update len d => Sys2Proof.Machine.execUpdate len d s
  | .finalize => Sys2Proof.Machine.execFinalize s
  | .reset => Sys2Proof.Machine.execReset s

end Sys2Proof.Machine
end

