-- ==== Sys2Proof/Machine/Step.lean ====
section
/-!
DEFINITION. One command step of the run loop (30_encoding.md R78), in the order of its checks: hardware reset
(70_reset_and_hazards.md R210), phase FAULT (60_exceptions.md R185), end of stream, illegal opcode, usage, length,
execution. Every decision is an operation of Machine/Ops.lean, Decode.lean or a meaning.
-/
namespace Sys2Proof.Machine

/-- One iteration of `Run` (R78), with the `rst` event sampled first (R210). -/
def step (s : State) : Host.Outcome State Fault Refusal :=
  if s.rst then .next (hardwareReset s)
  else if s.phase = .fault then stuck s
  else
    match decode (fetch s) with
    | .ok i => exec i s
    | .empty => .next (endOfStream s)
    | .illegal _ => .next (raise (decodeFault true s.phase) s)
    | .short _ => .next (raise (decodeFault false s.phase) s)

/-- `s` with the table word `w` of `nbits` bits, zeros behind it, submitted as the current stream, so that the next
step runs it (notes/assumptions/4.md, notes/assumptions/11.md). A pending `rst` is dropped, since it would come first. -/
def State.withFetchWord (s : State) (nbits w : Nat) : State :=
  { s with stream := tableBytes nbits w, pos := 0, rst := false }

end Sys2Proof.Machine
end

