-- ==== Sys2Proof/Machine/Facade.lean ====
section
/-!
DEFINITION. The facade's pseudo-commands and their expansions (44_reset_and_pseudo.md R170 to R173). They have no opcode;
an assembler expands them. Copy (R174) is duplication of the State value and needs no definition.
-/
namespace Sys2Proof.Machine

/-- A pseudo-command (R170 to R172). -/
inductive Pseudo where
  /-- `NEW` (R170). -/
  | new
  /-- `NEW_WITH <bytes>` (R171). -/
  | newWith (d : List Byte)
  /-- `UPDATE_TEXT "<text>"` (R172): `d` is the text's byte encoding, chosen by the host. -/
  | updateText (d : List Byte)
  deriving DecidableEq, Repr

/-- `NEW` on a block in use is RESET; on a freshly instantiated block it is the hardware reset already applied and
expands to nothing (R170). -/
def expandNew (inUse : Bool) : List Instr := if inUse then [.reset] else []

/-- The commands a pseudo-command expands to (R170 to R172); `inUse` says the block has been used since its hardware
reset. -/
def expandPseudo (inUse : Bool) : Pseudo → List Instr
  | .new => expandNew inUse
  | .newWith d => expandNew inUse ++ [.updateBytes d]
  | .updateText d => [.updateBytes d]

/-- The bytes of a pseudo-command (R171, R172). -/
def encodePseudo (inUse : Bool) (p : Pseudo) : List Byte := assemble (expandPseudo inUse p)

end Sys2Proof.Machine
end

