-- ==== Sys2Proof/Machine/Flags.lean ====
section
/-!
DEFINITION. The status outputs and the digest port (10_state.md R18 to R21, R28). The block keeps no condition codes
(R20): every output is a pure function of the state at a command boundary.
-/
namespace Sys2Proof.Machine

/-- The two-bit value of `phase` on its port (R18). -/
def phaseCode : Phase → BitVec 2
  | .ready => 0
  | .done => 1
  | .fault => 2

/-- The two-bit value of `fault_code` on its port (R19). -/
def faultCodeBits : FaultCode → BitVec 2
  | .none => 0
  | .usage => 1
  | .length => 2
  | .illegal => 3

/-- `digest_valid = (phase = DONE)` (R20). -/
def digestValid (s : State) : Bool := decide (s.phase = .done)

/-- `fault = (phase = FAULT)` (R20). -/
def faultOut (s : State) : Bool := decide (s.phase = .fault)

/-- `c_ready` at a command boundary: 0 forever in phase FAULT (R28, R185). -/
def cReady (s : State) : Bool := !faultOut s

/-- `h0 ‖ h1 ‖ h2 ‖ h3 ‖ h4`, `h0` the most significant (R21). -/
def digestWord (h : Chain) : BitVec 160 := h.h0 ++ h.h1 ++ h.h2 ++ h.h3 ++ h.h4

/-- The `digest` port (R21): it has a value only while `digest_valid = 1` (93 U5; notes/assumptions/9.md). -/
def digestPort (s : State) : Option (BitVec 160) :=
  if digestValid s then some (digestWord s.h) else none

/-- The output ports of R28. -/
structure Outputs where
  cReady : Bool
  digest : Option (BitVec 160)
  digestValid : Bool
  fault : Bool
  faultCode : BitVec 2
  phase : BitVec 2
  deriving DecidableEq, Repr

/-- The outputs the host sees at a command boundary (R28). -/
def outputs (s : State) : Outputs where
  cReady := cReady s
  digest := digestPort s
  digestValid := digestValid s
  fault := faultOut s
  faultCode := faultCodeBits s.faultCode
  phase := phaseCode s.phase

end Sys2Proof.Machine
end

