-- ==== Sys2Proof/Machine/Micro.lean ====
section
/-!
DEFINITION. The micro-step view of the two sequencers inside a command: the 82-step compression (41_compress_block.md
R126) and the padding and finalization state machine (43_finalize.md R152), with the hidden registers as fields
(10_state.md R12, R13, R23, R24). It is a refinement of the atomic commands (92 D1, D16): no meaning depends on it, and
statements say that its composites equal them. The sliding-window form of the schedule (R121) stands here too.
-/
namespace Sys2Proof.Machine

/-! ## The compression engine -/

/-- The hidden registers of a compression (R12, R13, R23). -/
structure Hidden where
  work : Work
  tmp : Word
  w : Sched
  t : Fin 81
  deriving DecidableEq, Repr

/-- One of the 82 steps of a compression (R126). -/
inductive CompressStep where
  | load
  | round (t : Fin 80)
  | add
  deriving DecidableEq, Repr

/-- Step 0, LOAD (R126): the converter writes `W[0..15]`, the working registers load, `t <- 0`. -/
def microLoad (blk : Block) (h : Chain) (x : Hidden) : Hidden :=
  { x with w := convert blk x.w, work := loadWork h, t := 0 }

/-- Compute `W[t]` if `t >= 16` (R126, R120). -/
def microExpand (w : Sched) (t : Fin 80) : Sched :=
  if h : 16 ≤ t.val then expandWord w ⟨t.val - 16, by omega⟩ else w

/-- Step `1 + t`, ROUND (R126, R123). -/
def microRound (x : Hidden) (t : Fin 80) : Hidden :=
  let w := microExpand x.w t
  let sum := roundSum w x.work t
  { work := shiftWork x.work sum, tmp := sum, w := w, t := ⟨t.val + 1, by omega⟩ }

/-- One micro-step (R126): the chaining registers change in ADD only. -/
def microStep (blk : Block) (x : Chain × Hidden) : CompressStep → Chain × Hidden
  | .load => (x.1, microLoad blk x.1 x.2)
  | .round t => (x.1, microRound x.2 t)
  | .add => (feedForward x.1 x.2.work, x.2)

/-- The reference schedule of one compression: LOAD, 80 ROUNDs, ADD, 82 steps (R126). -/
def microSchedule : List CompressStep := .load :: ((List.finRange 80).map .round ++ [.add])

/-- The composite of the 82 steps, from any hidden state. -/
def microCompress (h : Chain) (blk : Block) (x : Hidden) : Chain × Hidden :=
  microSchedule.foldl (microStep blk) (h, x)

/-! ## The sliding-window schedule (R121) -/

/-- One step of the 16-word window for `t = i + 16`, `s = t mod 16` (R121). -/
def windowStep (w : Vector Word 16) (i : Fin 64) : Vector Word 16 :=
  let s := (i.val + 16) % 16
  w.set s (rotl 1 (w[(s + 13) % 16] ^^^ w[(s + 8) % 16] ^^^ w[(s + 2) % 16] ^^^ w[s]))

/-- The window loaded with `W[0..15]` (R121). -/
def windowLoad (blk : Block) : Vector Word 16 := Vector.ofFn (blockWord blk)

/-- The window after the steps for `t = 16 .. t`, as it stands before round `t` (R121). -/
def windowAt (blk : Block) (t : Fin 80) : Vector Word 16 :=
  ((List.finRange 64).take (t.val - 15)).foldl windowStep (windowLoad blk)

/-- `W[t]` read from the window (R121): `w[t mod 16]`. -/
def windowWord (blk : Block) (t : Fin 80) : Word := (windowAt blk t)[t.val % 16]

/-! ## The padding and finalization state machine (R152) -/

/-- The states of the padding machine (R24, R152); `idle` is "leaves the machine". -/
inductive PadState where
  | mark
  | zero
  | len (k : Fin 8)
  | last
  | idle
  deriving DecidableEq, Repr

/-- The padding machine: `pstate`, the latch `L`, and the block it works on (R24, R152). -/
structure PadMachine where
  pstate : PadState
  latch : DWord
  st : State
  deriving DecidableEq, Repr

/-- Entry (R152): `L <- count`, then MARK. -/
def padEntry (s : State) : PadMachine := ⟨.mark, s.count, s⟩

/-- The byte `BYTES64(L)[k]` (R109, R152). -/
def lenByte (len : DWord) (k : Fin 8) : Byte := (bytes64 len)[k.val]'(by simp [bytes64])

/-- One micro-step of the padding machine (R152). `last` is its state END: deliver the digest, enter DONE, and the
command's byte is consumed. -/
def padStep (m : PadMachine) : PadMachine :=
  match m.pstate with
  | .mark => { m with pstate := .zero, st := absorb 0x80#8 m.st }
  | .zero =>
    if m.st.fill.val = 56 then { m with pstate := .len 0 }
    else { m with st := absorb 0x00#8 m.st }
  | .len k =>
    { m with
      pstate := if h : k.val < 7 then .len ⟨k.val + 1, by omega⟩ else .last
      st := absorb (lenByte m.latch k) m.st }
  | .last => { m with pstate := .idle, st := advance 1 (deliver m.st) }
  | .idle => m

/-- `n` micro-steps of the padding machine. -/
def padRun : Nat → PadMachine → PadMachine
  | 0, m => m
  | n + 1, m => padRun n (padStep m)

end Sys2Proof.Machine
end

