-- ==== Sys2Proof/Machine/Run.lean ====
section
/-!
DEFINITION. `Run(state, s)` of 30_encoding.md R78: the command step repeated until the phase is FAULT or the stream is
exhausted. Every command step that goes on consumes at least one byte, so `|s| + 1` iterations reach the stop.
-/
namespace Sys2Proof.Machine

/-- The run loop stops here (R78): the phase is FAULT or no byte is left. -/
def runStops (s : State) : Bool := decide (s.phase = .fault) || decide (s.stream.length ≤ s.pos)

/-- At most `n` command steps of the run loop (R78). -/
def runLoop : Nat → State → State
  | 0, s => s
  | n + 1, s =>
    if runStops s then s
    else
      match step s with
      | .next t => runLoop n t
      | .fault _ => s
      | .refused _ => s

/-- `Run(state, s)` (R78) as a state: `pos` starts at 0 and the digests of this run are appended to `out`. -/
def runStream (bytes : List Byte) (s : State) : State :=
  runLoop (bytes.length + 1) { s with stream := bytes, pos := 0 }

/-- The three results of `Run(state, s)` (R78): the final state, the digests delivered in this run, the bytes
consumed. -/
def runResult (bytes : List Byte) (s : State) : State × List Digest × Nat :=
  let t := runStream bytes s
  (t, t.out.drop s.out.length, t.pos)

end Sys2Proof.Machine
end

