-- ==== Sys2Proof/Safety.lean ====
section
/-!
DEFINITION. What a well-formed state and a safe run are, in the terms claims use. `Inv` collects what the spec says of
every command boundary (10_state.md R14, R15, R17, R19, R26); a run is safe while the phase is not FAULT
(60_exceptions.md R185, "every claim about a digest takes phase is not FAULT as a premise").
-/
namespace Sys2Proof.Machine

/-- Outside FAULT the buffer has exactly `fill` bytes (R14, R15). -/
def BufInv (s : State) : Prop := s.phase ≠ .fault → Memory.wf s.buf s.fill = true

/-- In READY the counter and the fill count agree (R17): `count mod 512 = 8 * fill`. -/
def CountInv (s : State) : Prop := s.phase = .ready → s.count.toNat % 512 = 8 * s.fill.val

/-- In DONE the buffer is empty (R17, R154). -/
def DoneInv (s : State) : Prop := s.phase = .done → s.fill = 0 ∧ s.buf = []

/-- `fault_code` is not NONE exactly when the phase is FAULT (R19). -/
def CodeInv (s : State) : Prop := s.faultCode ≠ .none ↔ s.phase = .fault

/-- The stream offset never passes the end of the stream (R26, R141). -/
def PosInv (s : State) : Prop := s.pos ≤ s.stream.length

/-- The invariant of every command boundary. -/
structure Inv (s : State) : Prop where
  buf : BufInv s
  count : CountInv s
  done : DoneInv s
  code : CodeInv s
  pos : PosInv s

/-- A state of a successful run (R185): no fault has been raised. -/
def Safe (s : State) : Prop := s.phase ≠ .fault

end Sys2Proof.Machine
end

