-- ==== Sys2Proof/Certificates/Slice0/Obligations.lean ====
section
/-!
DEFINITION. The statements about this model. Each docstring names the rule of spec/ it formalises, or says that it is
derived and from what. A statement about what a fault leaves never says anything about `h`, `count`, `buf`, `fill` (R184).
-/

namespace Sys2Proof.Claims

open Sys2Proof.Machine

/-- The host's side of the state, which no command touches: the stream, the streams behind it, `rst`. -/
def HostSame (s t : State) : Prop := t.stream = s.stream ∧ t.pending = s.pending ∧ t.rst = s.rst

/-- `t` is `s` after `raise Fault(code)`, as far as the spec fixes it (R184): the phase and the code, nothing delivered,
`pos` at the opcode byte; `h`, `count`, `buf`, `fill` are unspecified and not spoken of. -/
def Raised (code : FaultCode) (s t : State) : Prop :=
  t.phase = .fault ∧ t.faultCode = code ∧ t.pos = s.pos ∧ t.out = s.out ∧ HostSame s t

/-- The data registers hold the `init()` values and the phase is READY (R30, R165, R210). -/
def Initial (t : State) : Prop :=
  t.h = ⟨0x67452301#32, 0xEFCDAB89#32, 0x98BADCFE#32, 0x10325476#32, 0xC3D2E1F0#32⟩ ∧
  t.count = 0#64 ∧ t.buf = [] ∧ t.fill = 0 ∧ t.phase = .ready

/-- The logical function of round `t` (R103), written out. -/
def roundFun (t : Nat) (b c d : Word) : Word :=
  if t < 20 then (b &&& c) ||| (~~~b &&& d)
  else if t < 40 then b ^^^ c ^^^ d
  else if t < 60 then (b &&& c) ||| (b &&& d) ||| (c &&& d)
  else b ^^^ c ^^^ d

/-- The constant of round `t` (R104), written out. -/
def roundConst (t : Nat) : Word :=
  if t < 20 then 0x5A827999#32 else if t < 40 then 0x6ED9EBA1#32
  else if t < 60 then 0x8F1BBCDC#32 else 0xCA62C1D6#32

/-- `W` is the message schedule of the block `blk` (R108, R120), as equations. -/
def IsSchedule (blk : Block) (w : Nat → Word) : Prop :=
  (∀ i : Fin 16, w i.val =
    be32 blk[4 * i.val] blk[4 * i.val + 1] blk[4 * i.val + 2] blk[4 * i.val + 3]) ∧
  (∀ t, 16 ≤ t → t < 80 → w t = (w (t - 3) ^^^ w (t - 8) ^^^ w (t - 14) ^^^ w (t - 16)).rotateLeft 1)

/-- `a .. e` are the working registers before each round, from the chaining value `h` on (R122, R123), as equations. -/
def IsRounds (h : Chain) (w a b c d e : Nat → Word) : Prop :=
  (a 0 = h.h0 ∧ b 0 = h.h1 ∧ c 0 = h.h2 ∧ d 0 = h.h3 ∧ e 0 = h.h4) ∧
  ∀ t, t < 80 →
    a (t + 1) = (a t).rotateLeft 5 + roundFun t (b t) (c t) (d t) + e t + roundConst t + w t ∧
    b (t + 1) = a t ∧ c (t + 1) = (b t).rotateLeft 30 ∧ d (t + 1) = c t ∧ e (t + 1) = d t

/-- The raw value of the four bytes of a `len` field (R73). -/
def rawLen (b0 b1 b2 b3 : Byte) : Nat := 2 ^ 24 * b0.toNat + 2 ^ 16 * b1.toNat + 2 ^ 8 * b2.toNat + b3.toNat

/-- The command with opcode byte `x` and the bytes `rest` behind it breaks a length rule (R182 a to d). -/
def lengthBad (x : Byte) (rest : List Byte) : Bool :=
  if x = 0x01#8 then decide (rest.length < 64)
  else if x = 0x02#8 then
    match rest with
    | b0 :: b1 :: b2 :: b3 :: d => decide (2 ^ 31 ≤ rawLen b0 b1 b2 b3) || decide (d.length < rawLen b0 b1 b2 b3)
    | _ => true
  else false

/-- The opcode byte `x`, the bytes `rest` behind it and the phase meet the cause of the fault `code` in the table of
R196 (R180 to R183). -/
def faultCause (p : Phase) (x : Byte) (rest : List Byte) : FaultCode → Prop
  | .none => False
  | .usage => p = .done ∧ (x = 0x01#8 ∨ x = 0x02#8 ∨ x = 0x03#8)
  | .length => p = .ready ∧ lengthBad x rest = true
  | .illegal => x ≠ 0x01#8 ∧ x ≠ 0x02#8 ∧ x ≠ 0x03#8 ∧ x ≠ 0x04#8

/-- The words `h0 .. h4` by index (R11, R156). -/
def chainWord (h : Chain) (j : Fin 5) : Word :=
  match j with
  | 0 => h.h0
  | 1 => h.h1
  | 2 => h.h2
  | 3 => h.h3
  | 4 => h.h4

/-- Commands executed one after another, while each answers a next state. -/
def execAll : List Instr → State → Option State
  | [], s => some s
  | i :: is, s =>
    match exec i s with
    | .next t => execAll is t
    | .fault _ => none
    | .refused _ => none

/-- `n` steps, while each answers a next state. -/
def stepN : Nat → State → Option State
  | 0, s => some s
  | n + 1, s =>
    match step s with
    | .next t => stepN n t
    | .fault _ => none
    | .refused _ => none

end Sys2Proof.Claims

open Sys2Proof Sys2Proof.Machine Sys2Proof.Claims

/-! ## Reset and hardware reset -/

/-- R30: the value of every piece of state after hardware reset, and that RESET sets the same and leaves `fault_code`. -/
def Obligations.ResetValuesAsTabulated : Prop :=
  (Initial State.reset ∧ State.reset.faultCode = .none ∧ State.reset.pos = 0 ∧
    digestValid State.reset = false ∧ faultOut State.reset = false) ∧
  ∀ s : State, s.phase ≠ .fault →
    ∃ t, exec .reset s = .next t ∧ Initial t ∧ t.faultCode = s.faultCode

/-- R210: the `rst` event installs the `init()` values, clears the fault, abandons the stream; it is the only event that
leaves phase FAULT. -/
def Obligations.HardwareResetInstallsInit : Prop :=
  (∀ s : State, s.rst = true →
    ∃ t, step s = .next t ∧ Initial t ∧ t.faultCode = .none ∧ t.pos = 0 ∧ t.stream = []) ∧
  ∀ s t : State, s.phase = .fault → step s = .next t → s.rst = true

/-- Derived (notes/assumptions/5.md, 6.md; R220): hardware reset keeps the digests delivered and the streams not begun,
and consumes the `rst` event. -/
def Obligations.HardwareResetKeepsDelivered : Prop :=
  ∀ s : State, s.rst = true →
    ∃ t, step s = .next t ∧ t.out = s.out ∧ t.pending = s.pending ∧ t.rst = false

/-- R165: RESET in READY and in DONE; the frame: `fault_code`, the digests delivered and the host's side are unchanged;
twice is once. In FAULT it is not executed. -/
def Obligations.ResetCommandReinitializes : Prop :=
  (∀ s : State, s.phase ≠ .fault →
    ∃ t, exec .reset s = .next t ∧ Initial t ∧ t.faultCode = s.faultCode ∧ t.out = s.out ∧
      HostSame s t ∧ t.freeIdx = s.freeIdx ∧ t.pos = s.pos + 1 ∧ digestValid t = false ∧
      exec .reset t = .next { t with pos := t.pos + 1 }) ∧
  ∀ s t : State, s.phase = .fault → exec .reset s ≠ .next t

/-- Derived from R166 (no residual state leaks across a reset): two instances whose hosts see the same streams, whatever
their chaining values, counters and buffers, run alike after RESET and deliver the same digests. `h`, `count`, `buf` and
`fill` are compared outside phase FAULT only, where no claim may read them (R184, 93 U4). -/
def Obligations.NoResidueAcrossReset : Prop :=
  ∀ s₁ s₂ t₁ t₂ u₁ : State, ∀ n : Nat,
    s₁.phase ≠ .fault → s₂.phase ≠ .fault →
    s₁.faultCode = s₂.faultCode → s₁.pos = s₂.pos → HostSame s₁ s₂ →
    exec .reset s₁ = .next t₁ → exec .reset s₂ = .next t₂ → stepN n t₁ = some u₁ →
    ∃ u₂ ds, stepN n t₂ = some u₂ ∧ u₁.out = s₁.out ++ ds ∧ u₂.out = s₂.out ++ ds ∧
      u₂.phase = u₁.phase ∧ u₂.faultCode = u₁.faultCode ∧ u₂.pos = u₁.pos ∧ HostSame u₁ u₂ ∧
      (u₁.phase ≠ .fault → u₂.h = u₁.h ∧ u₂.count = u₁.count ∧ u₂.buf = u₁.buf ∧ u₂.fill = u₁.fill)

/-! ## The invariant of every command boundary -/

/-- Derived from R14, R15, R17, R19, R26: every step keeps the invariant, from every state that meets it. -/
def Obligations.StepKeepsInvariant : Prop :=
  ∀ s t : State, Inv s → step s = .next t → Inv t

/-- The invariant holds at reset (R30). -/
def Obligations.ResetMeetsInvariant : Prop := Inv State.reset

/-! ## Decoding and encoding -/

/-- R74: the opcode map, all 256 values. -/
def Obligations.OpcodeMapIsComplete : Prop :=
  ∀ x : Byte,
    (decodeOp x = some .block ↔ x = 0x01#8) ∧ (decodeOp x = some .update ↔ x = 0x02#8) ∧
    (decodeOp x = some .finalize ↔ x = 0x03#8) ∧ (decodeOp x = some .reset ↔ x = 0x04#8) ∧
    (decodeOp x = none ↔ x ≠ 0x01#8 ∧ x ≠ 0x02#8 ∧ x ≠ 0x03#8 ∧ x ≠ 0x04#8)

/-- Words written out from R71's formats decode to the commands they stand for. -/
def Obligations.WrittenOutWordsDecode : Prop :=
  decode [0x02#8, 0x00#8, 0x00#8, 0x00#8, 0x03#8, 0x61#8, 0x62#8, 0x63#8, 0x03#8] =
      .ok (.update 3 [0x61#8, 0x62#8, 0x63#8, 0x03#8]) ∧
  decode [0x02#8, 0xFF#8, 0xFF#8, 0xFF#8, 0xFF#8] = .ok (.update (-1) []) ∧
  decode [0x03#8] = .ok .finalize ∧ decode [0x04#8, 0x03#8] = .ok .reset ∧
  decode (0x01#8 :: List.replicate 64 0xAB#8) = .ok (.block (Vector.replicate 64 0xAB#8))

/-- R77: the decoder, case by case, and where the next command begins. An operand cut short is a length error; the `D`
of an UPDATE is every byte that is left. -/
def Obligations.DecodeOperandsAsTabulated : Prop :=
  decode [] = .empty ∧
  ∀ rest : List Byte,
    (rest.length < 64 → decode (0x01#8 :: rest) = .short .block) ∧
    (64 ≤ rest.length → ∃ b : Block, b.toList = rest.take 64 ∧ decode (0x01#8 :: rest) = .ok (.block b) ∧
      encodedLength (.block b) = 65) ∧
    (rest.length < 4 → decode (0x02#8 :: rest) = .short .update) ∧
    (∀ b0 b1 b2 b3 d, rest = b0 :: b1 :: b2 :: b3 :: d →
      decode (0x02#8 :: rest) = .ok (.update (sextLen (be32 b0 b1 b2 b3)) d) ∧
      (0 ≤ sextLen (be32 b0 b1 b2 b3) →
        (encodedLength (.update (sextLen (be32 b0 b1 b2 b3)) d) : Int) = 5 + sextLen (be32 b0 b1 b2 b3))) ∧
    (decode (0x03#8 :: rest) = .ok .finalize ∧ encodedLength .finalize = 1) ∧
    (decode (0x04#8 :: rest) = .ok .reset ∧ encodedLength .reset = 1) ∧
    ∀ x : Byte, x ≠ 0x01#8 → x ≠ 0x02#8 → x ≠ 0x03#8 → x ≠ 0x04#8 → decode (x :: rest) = .illegal x

/-- R73: the `len` field is the big-endian two's complement reading of its four bytes, unscaled, and every byte behind it
is `D` (R77). -/
def Obligations.LengthFieldIsSignedBigEndian : Prop :=
  ∀ (b0 b1 b2 b3 : Byte) (d : List Byte),
    ∃ len : Int, decode (0x02#8 :: b0 :: b1 :: b2 :: b3 :: d) = .ok (.update len d) ∧
      (rawLen b0 b1 b2 b3 < 2 ^ 31 → len = rawLen b0 b1 b2 b3) ∧
      (2 ^ 31 ≤ rawLen b0 b1 b2 b3 → len = (rawLen b0 b1 b2 b3 : Int) - 2 ^ 32) ∧
      -2 ^ 31 ≤ len ∧ len ≤ 2 ^ 31 - 1

/-- Decode and encode agree, for every well-formed command and whatever bytes follow it in the stream: a BLOCK, FINALIZE
or RESET reads back as it was, an UPDATE with the following bytes behind its `D` (R77). -/
def Obligations.DecodeOfEncodeIsTheCommand : Prop :=
  ∀ (i : Instr) (rest : List Byte), i.wf = true →
    decode (encode i ++ rest) = .ok (i.withRest rest) ∧ decode (encode i) = .ok i

/-- The other direction: what decodes is well formed and its encoding stands at the front of the bytes; an UPDATE takes
all of them (R77). -/
def Obligations.DecodedCommandIsItsEncoding : Prop :=
  ∀ (bytes : List Byte) (i : Instr), decode bytes = .ok i →
    i.wf = true ∧ ∃ rest, encode i ++ rest = bytes ∧ (∀ len d, i = .update len d → rest = [])

/-- R72: the encoded length of a command, and that the next command's opcode byte is the byte immediately after it. -/
def Obligations.EncodedLengthOfCommands : Prop :=
  (∀ b : Block, (encode (.block b)).length = 65 ∧ encodedLength (.block b) = 65) ∧
  (∀ d : List Byte, (encode (.updateBytes d)).length = 5 + d.length ∧
    encodedLength (.updateBytes d) = 5 + d.length) ∧
  ((encode .finalize).length = 1 ∧ encodedLength .finalize = 1) ∧
  ((encode .reset).length = 1 ∧ encodedLength .reset = 1) ∧
  ∀ (i : Instr) (before after : List Byte) (s : State),
    (∀ len d, i = .update len d → len = d.length) →
    s.stream = before ++ encode i ++ after → s.pos = before.length + encodedLength i → fetch s = after

/-! ## The step and the run loop -/

/-- A step runs the decoded instruction: with `rst` low and no fault, when the bytes at `pos` decode to `i`, the step is
`exec i`, which itself moves `pos` (AdvanceOfPos). -/
def Obligations.StepRunsDecodedCommand : Prop :=
  ∀ (s : State) (i : Instr), s.rst = false → s.phase ≠ .fault → decode (s.stream.drop s.pos) = .ok i →
    step s = exec i s

/-- R193 with R78's checks: for any bytes at `pos`, which fault the step raises, in the fixed order ILLEGAL, USAGE,
LENGTH; with none of them the step runs the command without a fault. -/
def Obligations.FaultPriorityOfStep : Prop :=
  ∀ (s : State) (x : Byte) (rest : List Byte), s.rst = false → s.phase ≠ .fault → fetch s = x :: rest →
    ∃ t, step s = .next t ∧
      if x ≠ 0x01#8 ∧ x ≠ 0x02#8 ∧ x ≠ 0x03#8 ∧ x ≠ 0x04#8 then Raised .illegal s t
      else if x ≠ 0x04#8 ∧ s.phase = .done then Raised .usage s t
      else if lengthBad x rest = true then Raised .length s t
      else t.phase ≠ .fault ∧ t.faultCode = s.faultCode ∧ s.pos < t.pos

/-- Derived from R26 and R72: a command that completes advances `pos` by its encoded length, one that faults does not. -/
def Obligations.AdvanceOfPos : Prop :=
  ∀ (i : Instr) (s t : State), exec i s = .next t →
    (t.phase ≠ .fault → t.pos = s.pos + encodedLength i) ∧ (t.phase = .fault → t.pos = s.pos)

/-- Derived from R78 and 92 D27 (notes/assumptions/4.md): an exhausted stream is no error. The block waits with its state
held, and when the host has submitted another stream it starts that one at `pos` 0, its state persisting. -/
def Obligations.EndOfStreamHoldsState : Prop :=
  ∀ s : State, s.rst = false → s.phase ≠ .fault → s.stream.length ≤ s.pos →
    (s.pending = [] → step s = .next s) ∧
    (∀ q qs, s.pending = q :: qs → step s = .next { s with stream := q, pos := 0, pending := qs })

/-- Derived from R78 and R221 ("it needs only that every command terminates"): the run loop reaches its stop, and never
passes the end of the stream. -/
def Obligations.RunReachesItsStop : Prop :=
  ∀ (bytes : List Byte) (s : State), s.rst = false →
    runStops (runStream bytes s) = true ∧ (runStream bytes s).stream = bytes ∧ (runStream bytes s).pos ≤ bytes.length

/-- Derived from R196, R18: which events change the phase. Only FINALIZE in READY enters DONE; only RESET or hardware reset
leaves DONE for READY; a step enters FAULT from READY or DONE on the tabulated events alone, each with its own code: an
illegal opcode; BLOCK, UPDATE or FINALIZE in DONE; a BLOCK or UPDATE of bad length in READY. -/
def Obligations.PhaseChangesOnlyAsTabulated : Prop :=
  ∀ s t : State, step s = .next t →
    (t.phase = .done → s.phase ≠ .done → s.phase = .ready ∧ s.rst = false ∧ decode (fetch s) = .ok .finalize) ∧
    (t.phase = .ready → s.phase = .done → s.rst = true ∨ decode (fetch s) = .ok .reset) ∧
    (t.phase = .ready → s.phase = .fault → s.rst = true) ∧
    (t.phase = .fault → s.phase ≠ .fault ∧ s.rst = false ∧
      ∃ x rest, fetch s = x :: rest ∧ faultCause s.phase x rest t.faultCode)

/-- Derived from R150, R156, R184: the list of digests grows by FINALIZE in READY alone, and then by the serialized
chaining value it leaves. -/
def Obligations.OnlyFinalizeDelivers : Prop :=
  ∀ s t : State, step s = .next t →
    t.out = s.out ∨
    (s.phase = .ready ∧ s.rst = false ∧ decode (fetch s) = .ok .finalize ∧ t.phase = .done ∧
      t.out = s.out ++ [serialize t.h])

/-- Derived from R11 and R16: outside a fault, `h` changes only through BLOCK, UPDATE, FINALIZE, RESET and hardware reset,
and `count` only through UPDATE, RESET and hardware reset. -/
def Obligations.WhoWritesTheRegisters : Prop :=
  ∀ s t : State, step s = .next t → t.phase ≠ .fault → s.rst = false →
    (t.count ≠ s.count → (∃ len d, decode (fetch s) = .ok (.update len d)) ∨ decode (fetch s) = .ok .reset) ∧
    (t.h ≠ s.h → ∃ i, decode (fetch s) = .ok i) ∧
    (t.buf ≠ s.buf ∨ t.fill ≠ s.fill → ∃ i, decode (fetch s) = .ok i ∧ ∀ b, i ≠ .block b)

/-- Derived from R189 and R196: outside phase FAULT every command answers a next state; none is refused or stops. -/
def Obligations.EveryCommandAnswers : Prop :=
  ∀ (i : Instr) (s : State), s.phase ≠ .fault → ∃ t, exec i s = .next t

/-! ## Faults -/

/-- R184: raising a fault. The run loop stops; `h`, `count`, `buf`, `fill` are unspecified and not spoken of. -/
def Obligations.RaiseEntersFault : Prop :=
  ∀ (code : FaultCode) (s : State),
    Raised code s (raise code s) ∧ runStops (raise code s) = true ∧ faultOut (raise code s) = true ∧
      digestValid (raise code s) = false

/-- R181: use after finalize. The check looks at the opcode byte and the phase only; RESET never raises it. -/
def Obligations.UsageFaultInDone : Prop :=
  ∀ (s : State) (x : Byte) (rest : List Byte), s.rst = false → s.phase = .done → fetch s = x :: rest →
    ((x = 0x01#8 ∨ x = 0x02#8 ∨ x = 0x03#8) → ∃ t, step s = .next t ∧ Raised .usage s t) ∧
    (x = 0x04#8 → ∃ t, step s = .next t ∧ t.phase = .ready ∧ t.faultCode = s.faultCode)

/-- R182: the four length faults (a) to (d), in phase READY. -/
def Obligations.LengthFaultsInReady : Prop :=
  ∀ s : State, s.rst = false → s.phase = .ready →
    (∀ b0 b1 b2 b3 d, fetch s = 0x02#8 :: b0 :: b1 :: b2 :: b3 :: d →
      2 ^ 31 ≤ rawLen b0 b1 b2 b3 ∨ d.length < rawLen b0 b1 b2 b3 →
      ∃ t, step s = .next t ∧ Raised .length s t) ∧
    (∀ rest, fetch s = 0x02#8 :: rest → rest.length < 4 → ∃ t, step s = .next t ∧ Raised .length s t) ∧
    (∀ rest, fetch s = 0x01#8 :: rest → rest.length < 64 → ∃ t, step s = .next t ∧ Raised .length s t)

/-- R183: an opcode byte that is none of the four, in READY or DONE. -/
def Obligations.IllegalOpcodeFaults : Prop :=
  ∀ (s : State) (x : Byte) (rest : List Byte), s.rst = false → s.phase = .ready ∨ s.phase = .done →
    fetch s = x :: rest → x ≠ 0x01#8 → x ≠ 0x02#8 → x ≠ 0x03#8 → x ≠ 0x04#8 →
    ∃ t, step s = .next t ∧ Raised .illegal s t

/-- Derived from R185 (notes/assumptions/3.md): in phase FAULT no byte is taken and no command executes; the step answers
the fault outcome with the code that stuck. -/
def Obligations.FaultIsSticky : Prop :=
  ∀ s : State, s.phase = .fault →
    (∀ i, exec i s = .fault (.sticky s.faultCode)) ∧
    (s.rst = false → step s = .fault (.sticky s.faultCode)) ∧ cReady s = false

/-- R186: no return from a fault but hardware reset; the RESET command is not a way out. -/
def Obligations.OnlyHardwareResetLeavesFault : Prop :=
  ∀ s : State, s.phase = .fault →
    (∀ t, step s = .next t → s.rst = true ∧ Initial t ∧ t.faultCode = .none) ∧
    (∀ i t, exec i s ≠ .next t) ∧
    (s.rst = true → ∃ t, step s = .next t)

/-! ## The status outputs and the digest -/

/-- R20, with the port codes R18 and R19 give: the two status outputs follow the phase. -/
def Obligations.StatusOutputsFollowPhase : Prop :=
  (∀ s : State,
    (digestValid s = true ↔ s.phase = .done) ∧ (faultOut s = true ↔ s.phase = .fault) ∧
    (outputs s).digestValid = digestValid s ∧ (outputs s).fault = faultOut s ∧
    (outputs s).phase = phaseCode s.phase ∧ (outputs s).faultCode = faultCodeBits s.faultCode) ∧
  (digestValid State.reset = false ∧ faultOut State.reset = false) ∧
  (phaseCode .ready = 0#2 ∧ phaseCode .done = 1#2 ∧ phaseCode .fault = 2#2) ∧
  (faultCodeBits .none = 0#2 ∧ faultCodeBits .usage = 1#2 ∧ faultCodeBits .length = 2#2 ∧
    faultCodeBits .illegal = 3#2)

/-- R156: the digest serializer; its bytes are what FINALIZE delivers, and the port shows the same words while DONE. -/
def Obligations.DigestBytesBigEndian : Prop :=
  (∀ (h : Chain) (j : Fin 5) (k : Fin 4),
    (serialize h)[4 * j.val + k.val] = (chainWord h j).extractLsb' (24 - 8 * k.val) 8) ∧
  ∀ s : State, s.phase = .ready →
    ∃ t, exec .finalize s = .next t ∧ t.out = s.out ++ [serialize t.h] ∧ digestPort t = some (digestWord t.h)

/-- R21 (outside DONE the port has no value: notes/assumptions/9.md): while the phase is DONE the port shows
`h0 ‖ .. ‖ h4`, its 20 bytes are `digest[159-8i : 152-8i]`, and it is stable for as long as it is valid. -/
def Obligations.DigestPortStableInDone : Prop :=
  (∀ s : State, s.phase = .done → digestPort s = some (digestWord s.h)) ∧
  (∀ (h : Chain) (i : Fin 20), (serialize h)[i.val] = (digestWord h).extractLsb' (152 - 8 * i.val) 8) ∧
  ∀ s t : State, s.phase = .done → step s = .next t → t.phase = .done → digestPort t = digestPort s

/-- R22: equality and ordering of digests are byte-wise. -/
def Obligations.DigestOrderByteWise : Prop :=
  ∀ x y : Digest,
    (x = y ↔ ∀ i : Fin 20, x[i.val] = y[i.val]) ∧
    (digestLt x y = true ↔
      ∃ i : Fin 20, x[i.val].toNat < y[i.val].toNat ∧ ∀ j : Fin 20, j < i → x[j.val] = y[j.val])

/-! ## Datapath -/

/-- R100: rotate-left, as the sum formula and bit by bit. -/
def Obligations.RotateLeftMovesBits : Prop :=
  ∀ (n : Nat) (x : Word), 0 < n → n < 32 →
    (rotl n x).toNat = 2 ^ n * x.toNat % 2 ^ 32 + x.toNat / 2 ^ (32 - n) ∧
    ∀ i, i < 32 → (rotl n x).getLsbD i = x.getLsbD ((i + 32 - n) % 32)

/-- R103: the logical-function multiplexer bit by bit, and the equivalent forms it allows. -/
def Obligations.LogicalFunctionsBitByBit : Prop :=
  ∀ (b c d : Word),
    (∀ i, i < 32 →
      (fMux 0 b c d).getLsbD i = (if b.getLsbD i then c.getLsbD i else d.getLsbD i) ∧
      (fMux 1 b c d).getLsbD i = ((b.getLsbD i).toNat + (c.getLsbD i).toNat + (d.getLsbD i).toNat == 1 ||
        (b.getLsbD i).toNat + (c.getLsbD i).toNat + (d.getLsbD i).toNat == 3) ∧
      (fMux 2 b c d).getLsbD i = decide (2 ≤ (b.getLsbD i).toNat + (c.getLsbD i).toNat + (d.getLsbD i).toNat)) ∧
    fMux 3 b c d = fMux 1 b c d ∧
    fMux 0 b c d = d ^^^ (b &&& (c ^^^ d)) ∧
    fMux 2 b c d = (b &&& c) ||| (d &&& (b ||| c))

/-- R76, R104 (and R103's ranges): the selection code of a round, and that it drives both multiplexers. -/
def Obligations.RoundSelectionsByRange : Prop :=
  ∀ t : Fin 80, (fsel t).val = t.val / 20 ∧ kMux (fsel t) = roundConst t.val ∧
    ∀ b c d : Word, fMux (fsel t) b c d = roundFun t.val b c d

/-- R105, R106: the adders wrap silently, and the order of a sum does not matter. -/
def Obligations.AddersWrap : Prop :=
  (∀ xs : List Word, (add32 xs).toNat = (xs.map BitVec.toNat).sum % 2 ^ 32) ∧
  (∀ xs ys : List Word, xs.Perm ys → add32 xs = add32 ys) ∧
  ∀ x y : DWord, (add64 x y).toNat = (x.toNat + y.toNat) % 2 ^ 64

/-- R107, R109: the byte and word converters, most significant byte first, and that they undo each other. -/
def Obligations.ConvertersUndoEachOther : Prop :=
  (∀ b0 b1 b2 b3 : Byte, (be32 b0 b1 b2 b3).toNat = rawLen b0 b1 b2 b3 ∧ bytes32 (be32 b0 b1 b2 b3) = [b0, b1, b2, b3]) ∧
  (∀ w : Word, ∃ b0 b1 b2 b3, bytes32 w = [b0, b1, b2, b3] ∧ be32 b0 b1 b2 b3 = w) ∧
  ∀ v : DWord, (bytes64 v).length = 8 ∧ (bytes64 v).foldl (fun acc b => 256 * acc + b.toNat) 0 = v.toNat

/-- R43: `MemRead` is the big-endian sum for every `addr + n <= 64`, and the converter's word `i` is
`MemRead(4i, 4)`. -/
def Obligations.MemReadIsBigEndianSum : Prop :=
  (∀ (blk : Block) (addr n : Nat) (h : addr + n ≤ 64),
    memRead blk addr n h =
      ((List.finRange n).map fun k => 2 ^ (8 * (n - 1 - k.val)) * (blk[addr + k.val]'(by omega)).toNat).sum) ∧
  ∀ (blk : Block) (i : Fin 16), (blockWord blk i).toNat = memRead blk (4 * i.val) 4 (by omega)

/-- Derived from R42: byte index `4i + k` of a block is bits `[31-8k : 24-8k]` of word `i`. -/
def Obligations.BlockBytesInWords : Prop :=
  ∀ (blk : Block) (i : Fin 16) (k : Fin 4),
    (blockWord blk i).extractLsb' (24 - 8 * k.val) 8 = blk[4 * i.val + k.val]

/-- R108, R120: the message schedule of a block, from whatever the schedule file held before. -/
def Obligations.ScheduleMeetsRecurrence : Prop :=
  ∀ (w0 : Sched) (blk : Block), IsSchedule blk (fun t => (scheduleFrom w0 blk).toList.getD t 0#32)

/-- Derived from R13 and R166 ("written before it is read"; notes/assumptions/8.md): the schedule does not depend on what
the schedule file held before. -/
def Obligations.ScheduleForgetsOldWords : Prop :=
  ∀ (w0 w1 : Sched) (blk : Block), scheduleFrom w0 blk = scheduleFrom w1 blk

/-- Derived from R121: the sliding-window form yields the same 80 words. -/
def Obligations.SlidingWindowIsTheSchedule : Prop :=
  ∀ (blk : Block) (t : Fin 80), windowWord blk t = (schedule blk)[t.val]

/-- R122, R123, R124 (with R120): for every schedule and every sequence of working registers that meet the equations,
`Compress` is the chaining value increased by the registers after round 79. -/
def Obligations.CompressMeetsRoundEquations : Prop :=
  ∀ (h : Chain) (blk : Block) (w a b c d e : Nat → Word),
    IsSchedule blk w → IsRounds h w a b c d e →
    compress h blk = ⟨h.h0 + a 80, h.h1 + b 80, h.h2 + c 80, h.h3 + d 80, h.h4 + e 80⟩

/-- Derived from R126: the composite of the 82 micro-steps equals `Compress`, from any hidden state. -/
def Obligations.MicroStepsComposeToCompress : Prop :=
  microSchedule.length = 82 ∧
  ∀ (h : Chain) (blk : Block) (x : Hidden), (microCompress h blk x).1 = compress h blk

/-! ## The commands -/

/-- R125: BLOCK. In READY it completes with `h <- Compress(h, B)` and nothing else but `pos`; in DONE it is a usage
fault; with a payload cut short it is a length fault. -/
def Obligations.BlockCompressesOnly : Prop :=
  ∀ s : State,
    (∀ b : Block, s.phase = .ready →
      ∃ t, exec (.block b) s = .next t ∧ t.h = compress s.h b ∧ t.count = s.count ∧ t.buf = s.buf ∧
        t.fill = s.fill ∧ t.phase = .ready ∧ t.faultCode = s.faultCode ∧ t.out = s.out ∧ HostSame s t ∧
        t.freeIdx = s.freeIdx ∧ t.pos = s.pos + 65) ∧
    (∀ b : Block, s.phase = .done → ∃ t, exec (.block b) s = .next t ∧ Raised .usage s t) ∧
    (∀ rest, s.phase = .ready → s.rst = false → fetch s = 0x01#8 :: rest → rest.length < 64 →
      ∃ t, step s = .next t ∧ Raised .length s t)

/-- R140: `Absorb`, by the fill count. -/
def Obligations.AbsorbAppendsOrCompresses : Prop :=
  ∀ (x : Byte) (s : State), Memory.wf s.buf s.fill = true →
    (s.fill.val < 63 →
      (absorb x s).buf = s.buf ++ [x] ∧ (absorb x s).fill.val = s.fill.val + 1 ∧ (absorb x s).h = s.h) ∧
    (s.fill.val = 63 → ∃ blk : Block, blk.toList = s.buf ++ [x] ∧
      (absorb x s).h = compress s.h blk ∧ (absorb x s).buf = [] ∧ (absorb x s).fill = 0) ∧
    (absorb x s).count = s.count ∧ (absorb x s).phase = s.phase ∧ (absorb x s).out = s.out

/-- R44: `MemWrite` with `n = 8` is eight `Absorb` calls, most significant byte first, and FINALIZE's padding is the
marker, the zeros, and `MemWrite(56, 8, count)` at `fill = 56`. -/
def Obligations.MemWriteIsSuccessiveAbsorb : Prop :=
  ∀ (v : DWord) (x : Byte) (s : State), Memory.wf s.buf s.fill = true →
    memWrite1 x s = absorb x s ∧
    memWrite8 v s = (List.range 8).foldl (fun u k => absorb (BitVec.ofNat 8 (v.toNat / 2 ^ (8 * (7 - k)))) u) s ∧
    ∃ u, (u : State).fill.val = 56 ∧
      u = absorbAll (List.replicate (padZeros s.fill) 0x00#8) (memWrite1 0x80#8 s) ∧
      absorbAll (pad s.fill s.count) s = memWrite8 s.count u

/-- R141: UPDATE. With `0 <= len <= |D|` in READY it completes: the first `len` bytes absorbed in order, the counter
advanced by `8 * len`, the rest unchanged. Otherwise the length fault; in DONE the usage fault, even for `len = 0`. -/
def Obligations.UpdateAbsorbsAndCounts : Prop :=
  ∀ (len : Int) (d : List Byte) (s : State),
    (s.phase = .ready → 0 ≤ len → len ≤ d.length →
      ∃ t u, exec (.update len d) s = .next t ∧ u = (d.take len.toNat).foldl (fun v x => absorb x v) s ∧
        t.h = u.h ∧ t.buf = u.buf ∧ t.fill = u.fill ∧
        t.count.toNat = (s.count.toNat + 8 * len.toNat) % 2 ^ 64 ∧
        t.phase = .ready ∧ t.faultCode = s.faultCode ∧ t.out = s.out ∧ HostSame s t ∧
        t.freeIdx = s.freeIdx ∧ t.pos = s.pos + 5 + len.toNat) ∧
    (s.phase = .ready → len < 0 ∨ (d.length : Int) < len →
      ∃ t, exec (.update len d) s = .next t ∧ Raised .length s t) ∧
    (s.phase = .done → ∃ t, exec (.update len d) s = .next t ∧ Raised .usage s t) ∧
    (∀ rest, s.phase = .ready → s.rst = false → fetch s = 0x02#8 :: rest → rest.length < 4 →
      ∃ t, step s = .next t ∧ Raised .length s t)

/-- Derived from R140, R141, R143: what UPDATE leaves from any well-formed READY state, in closed form over the bytes
pending and the bytes absorbed. -/
def Obligations.UpdateClosedForm : Prop :=
  ∀ (len : Int) (d : List Byte) (s : State),
    s.phase = .ready → Memory.wf s.buf s.fill = true → 0 ≤ len → len ≤ d.length →
    ∃ t, exec (.update len d) s = .next t ∧
      t.h = compressAll s.h (fullBlocks (s.buf ++ d.take len.toNat)) ∧
      t.buf = tailBytes (s.buf ++ d.take len.toNat) ∧
      t.fill.val = (s.fill.val + len.toNat) % 64

/-- Derived from R141: `len = 0` is a no-op on the block's state; only `pos` moves past the command. -/
def Obligations.ZeroLengthUpdateIsNoop : Prop :=
  ∀ (d : List Byte) (s : State), s.phase = .ready → exec (.update 0 d) s = .next { s with pos := s.pos + 5 }

/-- Derived from R142, the document's primary correctness contract: any chunking of a message, empty chunks included,
leaves the same state as one UPDATE of the whole. -/
def Obligations.ChunkingInvariance : Prop :=
  ∀ (cs : List (List Byte)) (s : State), s.phase = .ready →
    ∃ t u, execAll (cs.map Instr.updateBytes) s = some t ∧ exec (.updateBytes cs.flatten) s = .next u ∧
      t.h = u.h ∧ t.buf = u.buf ∧ t.fill = u.fill ∧ t.count = u.count ∧ t.phase = u.phase ∧
      t.faultCode = u.faultCode ∧ t.out = u.out

/-- R151: the padding sequence, its number of zero bytes and its length, and that it completes a block. -/
def Obligations.PadShape : Prop :=
  ∀ (fill : Fin 64) (len : DWord),
    ∃ z, pad fill len = [0x80#8] ++ List.replicate z 0x00#8 ++ bytes64 len ∧
      (z : Int) = (55 - (fill.val : Int)) % 64 ∧
      (fill.val ≤ 55 → (pad fill len).length = 64 - fill.val) ∧
      (56 ≤ fill.val → (pad fill len).length = 128 - fill.val)

/-- Derived from R153: FINALIZE compresses one block when `fill <= 55` and two otherwise; they are the pending bytes
followed by the padding, and the length field is the last eight bytes. -/
def Obligations.PaddingFallsInOneOrTwoBlocks : Prop :=
  ∀ s : State, Memory.wf s.buf s.fill = true →
    (fullBlocks (s.buf ++ pad s.fill s.count)).length = (if s.fill.val ≤ 55 then 1 else 2) ∧
    (fullBlocks (s.buf ++ pad s.fill s.count)).flatMap Vector.toList = s.buf ++ pad s.fill s.count ∧
    tailBytes (s.buf ++ pad s.fill s.count) = []

/-- R150 (with R154's frame, where `fault_code` is NONE by the invariant): FINALIZE. In READY it completes: the padding absorbed, the digest delivered, DONE, `count` not changed,
the buffer empty; in DONE it is a usage fault. -/
def Obligations.FinalizePadsAndDelivers : Prop :=
  ∀ s : State,
    (s.phase = .ready → Memory.wf s.buf s.fill = true →
      ∃ t, exec .finalize s = .next t ∧
        t.h = compressAll s.h (fullBlocks (s.buf ++ pad s.fill s.count)) ∧
        t.out = s.out ++ [serialize t.h] ∧ t.phase = .done ∧ t.count = s.count ∧ t.buf = [] ∧ t.fill = 0 ∧
        t.faultCode = s.faultCode ∧ HostSame s t ∧ t.freeIdx = s.freeIdx ∧ t.pos = s.pos + 1) ∧
    (s.phase = .done → ∃ t, exec .finalize s = .next t ∧ Raised .usage s t)

/-- Derived from R152: the padding and finalization state machine, run to its end, leaves what FINALIZE leaves. At most
one MARK, 63 ZERO absorptions and its exit, eight LEN and END: 74 micro-steps. -/
def Obligations.PaddingMachineIsFinalize : Prop :=
  ∀ s : State, s.phase = .ready → Memory.wf s.buf s.fill = true →
    (padRun 74 (padEntry s)).pstate = .idle ∧ exec .finalize s = .next (padRun 74 (padEntry s)).st

/-- Derived from R157 (with R143): from the initial values, UPDATE commands carrying a message in any chunking and then
FINALIZE deliver the serialized fold of `Compress` over the blocks of the padded message. It says what the rules deliver
for every length; only for `8n < 2^64` does FIPS 180-1 define a digest (R157, 93 U7). -/
def Obligations.MessageDigestIsFoldOfCompress : Prop :=
  ∀ (cs : List (List Byte)) (s : State), Initial s →
    ∃ t, execAll (cs.map Instr.updateBytes ++ [.finalize]) s = some t ∧ t.phase = .done ∧
      t.out = s.out ++ [serialize (compressAll Chain.iv (fullBlocks
        (cs.flatten ++ pad (Fin.ofNat 64 cs.flatten.length) (BitVec.ofNat 64 (8 * cs.flatten.length)))))]

/-- R170, R171, R172: the pseudo-commands expand to the bytes of their commands. -/
def Obligations.PseudoCommandExpansions : Prop :=
  (∀ d : List Byte, d.length < 2 ^ 31 →
    encodePseudo true (.newWith d) =
      0x04#8 :: 0x02#8 :: (bytes32 (BitVec.ofNat 32 d.length) ++ d) ∧
    encodePseudo false (.newWith d) = 0x02#8 :: (bytes32 (BitVec.ofNat 32 d.length) ++ d) ∧
    ∀ inUse : Bool,
      encodePseudo inUse (.updateText d) = 0x02#8 :: (bytes32 (BitVec.ofNat 32 d.length) ++ d) ∧
      decode (encodePseudo inUse (.updateText d)) = .ok (.update d.length d)) ∧
  encodePseudo true .new = [0x04#8] ∧ encodePseudo false .new = []
end

