-- ==== Sys2Proof/Laws/State.lean ====
section
/-!
SUPPORT. The fields of every named state update: one lemma per field per update, true by unfolding, so that no proof
unfolds a record update.
-/
namespace Sys2Proof.Laws

open Sys2Proof.Machine

/-! ## `advance` -/

@[simp] theorem advance_h (n : Nat) (s : State) : (advance n s).h = s.h := rfl
@[simp] theorem advance_count (n : Nat) (s : State) : (advance n s).count = s.count := rfl
@[simp] theorem advance_buf (n : Nat) (s : State) : (advance n s).buf = s.buf := rfl
@[simp] theorem advance_fill (n : Nat) (s : State) : (advance n s).fill = s.fill := rfl
@[simp] theorem advance_phase (n : Nat) (s : State) : (advance n s).phase = s.phase := rfl
@[simp] theorem advance_faultCode (n : Nat) (s : State) : (advance n s).faultCode = s.faultCode := rfl
@[simp] theorem advance_pos (n : Nat) (s : State) : (advance n s).pos = s.pos + n := rfl
@[simp] theorem advance_stream (n : Nat) (s : State) : (advance n s).stream = s.stream := rfl
@[simp] theorem advance_pending (n : Nat) (s : State) : (advance n s).pending = s.pending := rfl
@[simp] theorem advance_out (n : Nat) (s : State) : (advance n s).out = s.out := rfl
@[simp] theorem advance_rst (n : Nat) (s : State) : (advance n s).rst = s.rst := rfl
@[simp] theorem advance_freeIdx (n : Nat) (s : State) : (advance n s).freeIdx = s.freeIdx := rfl

/-! ## `addCount` -/

@[simp] theorem addCount_h (n : Nat) (s : State) : (addCount n s).h = s.h := rfl
@[simp] theorem addCount_count (n : Nat) (s : State) : (addCount n s).count = add64 s.count (BitVec.ofNat 64 (8 * n)) := rfl
@[simp] theorem addCount_buf (n : Nat) (s : State) : (addCount n s).buf = s.buf := rfl
@[simp] theorem addCount_fill (n : Nat) (s : State) : (addCount n s).fill = s.fill := rfl
@[simp] theorem addCount_phase (n : Nat) (s : State) : (addCount n s).phase = s.phase := rfl
@[simp] theorem addCount_faultCode (n : Nat) (s : State) : (addCount n s).faultCode = s.faultCode := rfl
@[simp] theorem addCount_pos (n : Nat) (s : State) : (addCount n s).pos = s.pos := rfl
@[simp] theorem addCount_stream (n : Nat) (s : State) : (addCount n s).stream = s.stream := rfl
@[simp] theorem addCount_pending (n : Nat) (s : State) : (addCount n s).pending = s.pending := rfl
@[simp] theorem addCount_out (n : Nat) (s : State) : (addCount n s).out = s.out := rfl
@[simp] theorem addCount_rst (n : Nat) (s : State) : (addCount n s).rst = s.rst := rfl
@[simp] theorem addCount_freeIdx (n : Nat) (s : State) : (addCount n s).freeIdx = s.freeIdx := rfl

/-! ## `initValues` -/

@[simp] theorem initValues_h (s : State) : (initValues s).h = Chain.iv := rfl
@[simp] theorem initValues_count (s : State) : (initValues s).count = 0#64 := rfl
@[simp] theorem initValues_buf (s : State) : (initValues s).buf = [] := rfl
@[simp] theorem initValues_fill (s : State) : (initValues s).fill = 0 := rfl
@[simp] theorem initValues_phase (s : State) : (initValues s).phase = .ready := rfl
@[simp] theorem initValues_faultCode (s : State) : (initValues s).faultCode = s.faultCode := rfl
@[simp] theorem initValues_pos (s : State) : (initValues s).pos = s.pos := rfl
@[simp] theorem initValues_stream (s : State) : (initValues s).stream = s.stream := rfl
@[simp] theorem initValues_pending (s : State) : (initValues s).pending = s.pending := rfl
@[simp] theorem initValues_out (s : State) : (initValues s).out = s.out := rfl
@[simp] theorem initValues_rst (s : State) : (initValues s).rst = s.rst := rfl
@[simp] theorem initValues_freeIdx (s : State) : (initValues s).freeIdx = s.freeIdx := rfl

/-! ## `deliver` -/

@[simp] theorem deliver_h (s : State) : (deliver s).h = s.h := rfl
@[simp] theorem deliver_count (s : State) : (deliver s).count = s.count := rfl
@[simp] theorem deliver_buf (s : State) : (deliver s).buf = s.buf := rfl
@[simp] theorem deliver_fill (s : State) : (deliver s).fill = s.fill := rfl
@[simp] theorem deliver_phase (s : State) : (deliver s).phase = .done := rfl
@[simp] theorem deliver_faultCode (s : State) : (deliver s).faultCode = s.faultCode := rfl
@[simp] theorem deliver_pos (s : State) : (deliver s).pos = s.pos := rfl
@[simp] theorem deliver_stream (s : State) : (deliver s).stream = s.stream := rfl
@[simp] theorem deliver_pending (s : State) : (deliver s).pending = s.pending := rfl
@[simp] theorem deliver_out (s : State) : (deliver s).out = s.out ++ [serialize s.h] := rfl
@[simp] theorem deliver_rst (s : State) : (deliver s).rst = s.rst := rfl
@[simp] theorem deliver_freeIdx (s : State) : (deliver s).freeIdx = s.freeIdx := rfl

/-! ## `raise` -/

@[simp] theorem raise_h (c : FaultCode) (s : State) : (raise c s).h = ⟨Config.freeH s.freeIdx 0, Config.freeH s.freeIdx 1, Config.freeH s.freeIdx 2, Config.freeH s.freeIdx 3,
      Config.freeH s.freeIdx 4⟩ := rfl
@[simp] theorem raise_count (c : FaultCode) (s : State) : (raise c s).count = Config.freeCount s.freeIdx := rfl
@[simp] theorem raise_buf (c : FaultCode) (s : State) : (raise c s).buf = Config.freeBuf s.freeIdx := rfl
@[simp] theorem raise_fill (c : FaultCode) (s : State) : (raise c s).fill = Config.freeFill s.freeIdx := rfl
@[simp] theorem raise_phase (c : FaultCode) (s : State) : (raise c s).phase = .fault := rfl
@[simp] theorem raise_faultCode (c : FaultCode) (s : State) : (raise c s).faultCode = c := rfl
@[simp] theorem raise_pos (c : FaultCode) (s : State) : (raise c s).pos = s.pos := rfl
@[simp] theorem raise_stream (c : FaultCode) (s : State) : (raise c s).stream = s.stream := rfl
@[simp] theorem raise_pending (c : FaultCode) (s : State) : (raise c s).pending = s.pending := rfl
@[simp] theorem raise_out (c : FaultCode) (s : State) : (raise c s).out = s.out := rfl
@[simp] theorem raise_rst (c : FaultCode) (s : State) : (raise c s).rst = s.rst := rfl
@[simp] theorem raise_freeIdx (c : FaultCode) (s : State) : (raise c s).freeIdx = s.freeIdx + 1 := rfl

/-! ## `hardwareReset` -/

@[simp] theorem hardwareReset_h (s : State) : (hardwareReset s).h = Chain.iv := rfl
@[simp] theorem hardwareReset_count (s : State) : (hardwareReset s).count = 0#64 := rfl
@[simp] theorem hardwareReset_buf (s : State) : (hardwareReset s).buf = [] := rfl
@[simp] theorem hardwareReset_fill (s : State) : (hardwareReset s).fill = 0 := rfl
@[simp] theorem hardwareReset_phase (s : State) : (hardwareReset s).phase = .ready := rfl
@[simp] theorem hardwareReset_faultCode (s : State) : (hardwareReset s).faultCode = .none := rfl
@[simp] theorem hardwareReset_pos (s : State) : (hardwareReset s).pos = 0 := rfl
@[simp] theorem hardwareReset_stream (s : State) : (hardwareReset s).stream = [] := rfl
@[simp] theorem hardwareReset_pending (s : State) : (hardwareReset s).pending = s.pending := rfl
@[simp] theorem hardwareReset_out (s : State) : (hardwareReset s).out = s.out := rfl
@[simp] theorem hardwareReset_rst (s : State) : (hardwareReset s).rst = false := rfl
@[simp] theorem hardwareReset_freeIdx (s : State) : (hardwareReset s).freeIdx = s.freeIdx := rfl

/-! ## `submit` -/

@[simp] theorem submit_h (bs : List Byte) (s : State) : (submit bs s).h = s.h := rfl
@[simp] theorem submit_count (bs : List Byte) (s : State) : (submit bs s).count = s.count := rfl
@[simp] theorem submit_buf (bs : List Byte) (s : State) : (submit bs s).buf = s.buf := rfl
@[simp] theorem submit_fill (bs : List Byte) (s : State) : (submit bs s).fill = s.fill := rfl
@[simp] theorem submit_phase (bs : List Byte) (s : State) : (submit bs s).phase = s.phase := rfl
@[simp] theorem submit_faultCode (bs : List Byte) (s : State) : (submit bs s).faultCode = s.faultCode := rfl
@[simp] theorem submit_pos (bs : List Byte) (s : State) : (submit bs s).pos = s.pos := rfl
@[simp] theorem submit_stream (bs : List Byte) (s : State) : (submit bs s).stream = s.stream := rfl
@[simp] theorem submit_pending (bs : List Byte) (s : State) : (submit bs s).pending = s.pending ++ [bs] := rfl
@[simp] theorem submit_out (bs : List Byte) (s : State) : (submit bs s).out = s.out := rfl
@[simp] theorem submit_rst (bs : List Byte) (s : State) : (submit bs s).rst = s.rst := rfl
@[simp] theorem submit_freeIdx (bs : List Byte) (s : State) : (submit bs s).freeIdx = s.freeIdx := rfl

/-! ## `assertRst` -/

@[simp] theorem assertRst_h (s : State) : (assertRst s).h = s.h := rfl
@[simp] theorem assertRst_count (s : State) : (assertRst s).count = s.count := rfl
@[simp] theorem assertRst_buf (s : State) : (assertRst s).buf = s.buf := rfl
@[simp] theorem assertRst_fill (s : State) : (assertRst s).fill = s.fill := rfl
@[simp] theorem assertRst_phase (s : State) : (assertRst s).phase = s.phase := rfl
@[simp] theorem assertRst_faultCode (s : State) : (assertRst s).faultCode = s.faultCode := rfl
@[simp] theorem assertRst_pos (s : State) : (assertRst s).pos = s.pos := rfl
@[simp] theorem assertRst_stream (s : State) : (assertRst s).stream = s.stream := rfl
@[simp] theorem assertRst_pending (s : State) : (assertRst s).pending = s.pending := rfl
@[simp] theorem assertRst_out (s : State) : (assertRst s).out = s.out := rfl
@[simp] theorem assertRst_rst (s : State) : (assertRst s).rst = true := rfl
@[simp] theorem assertRst_freeIdx (s : State) : (assertRst s).freeIdx = s.freeIdx := rfl

/-! ## `withFetchWord` -/

@[simp] theorem withFetchWord_h (s : State) (nbits w : Nat) : (s.withFetchWord nbits w).h = s.h := rfl
@[simp] theorem withFetchWord_count (s : State) (nbits w : Nat) : (s.withFetchWord nbits w).count = s.count := rfl
@[simp] theorem withFetchWord_buf (s : State) (nbits w : Nat) : (s.withFetchWord nbits w).buf = s.buf := rfl
@[simp] theorem withFetchWord_fill (s : State) (nbits w : Nat) : (s.withFetchWord nbits w).fill = s.fill := rfl
@[simp] theorem withFetchWord_phase (s : State) (nbits w : Nat) : (s.withFetchWord nbits w).phase = s.phase := rfl
@[simp] theorem withFetchWord_faultCode (s : State) (nbits w : Nat) : (s.withFetchWord nbits w).faultCode = s.faultCode := rfl
@[simp] theorem withFetchWord_pos (s : State) (nbits w : Nat) : (s.withFetchWord nbits w).pos = 0 := rfl
@[simp] theorem withFetchWord_stream (s : State) (nbits w : Nat) : (s.withFetchWord nbits w).stream = tableBytes nbits w := rfl
@[simp] theorem withFetchWord_pending (s : State) (nbits w : Nat) : (s.withFetchWord nbits w).pending = s.pending := rfl
@[simp] theorem withFetchWord_out (s : State) (nbits w : Nat) : (s.withFetchWord nbits w).out = s.out := rfl
@[simp] theorem withFetchWord_rst (s : State) (nbits w : Nat) : (s.withFetchWord nbits w).rst = false := rfl
@[simp] theorem withFetchWord_freeIdx (s : State) (nbits w : Nat) : (s.withFetchWord nbits w).freeIdx = s.freeIdx := rfl

end Sys2Proof.Laws
end

