-- ==== Sys2Proof/Laws/Ops.lean ====
section
/-!
SUPPORT. What each shared operation can do, said once: blocks, absorbing, the guards of the phase, `exec` and `step`.
The lemmas `…_wf` say that every operation on the buffer keeps its canonical form.
-/
namespace Sys2Proof.Laws

open Sys2Proof.Machine

/-! ## Blocks -/

theorem blockOf?_eq_some {l : List Byte} {b : Block} : blockOf? l = some b ↔ b.toList = l := by
  unfold blockOf?
  constructor
  · intro h
    split at h
    · cases h
      rfl
    · cases h
  · rintro rfl
    rw [dif_pos (by simp)]
    rfl

theorem blockOf?_eq_none {l : List Byte} : blockOf? l = none ↔ l.length ≠ 64 := by
  unfold blockOf?
  split <;> simp_all

@[simp] theorem blockOf?_toList (b : Block) : blockOf? b.toList = some b := blockOf?_eq_some.mpr rfl

/-! ## Absorbing -/

/-- Everything `absorb` can do (R140). -/
theorem absorb_cases (x : Byte) (s : State) :
    (∃ b : Block, b.toList = s.buf ++ [x] ∧ absorb x s = { s with h := compress s.h b, buf := [], fill := 0 }) ∨
    (s.buf.length ≠ 63 ∧ absorb x s = { s with buf := s.buf ++ [x], fill := s.fill + 1 }) := by
  cases h : blockOf? (s.buf ++ [x]) with
  | some b => exact .inl ⟨b, blockOf?_eq_some.mp h, by simp [absorb, h]⟩
  | none =>
    refine .inr ⟨?_, by simp [absorb, h]⟩
    have := blockOf?_eq_none.mp h
    simp at this
    omega

@[simp] theorem absorb_count (x : Byte) (s : State) : (absorb x s).count = s.count := by unfold absorb; split <;> rfl
@[simp] theorem absorb_phase (x : Byte) (s : State) : (absorb x s).phase = s.phase := by unfold absorb; split <;> rfl
@[simp] theorem absorb_faultCode (x : Byte) (s : State) : (absorb x s).faultCode = s.faultCode := by
  unfold absorb; split <;> rfl
@[simp] theorem absorb_pos (x : Byte) (s : State) : (absorb x s).pos = s.pos := by unfold absorb; split <;> rfl
@[simp] theorem absorb_stream (x : Byte) (s : State) : (absorb x s).stream = s.stream := by unfold absorb; split <;> rfl
@[simp] theorem absorb_pending (x : Byte) (s : State) : (absorb x s).pending = s.pending := by
  unfold absorb; split <;> rfl
@[simp] theorem absorb_out (x : Byte) (s : State) : (absorb x s).out = s.out := by unfold absorb; split <;> rfl
@[simp] theorem absorb_rst (x : Byte) (s : State) : (absorb x s).rst = s.rst := by unfold absorb; split <;> rfl
@[simp] theorem absorb_freeIdx (x : Byte) (s : State) : (absorb x s).freeIdx = s.freeIdx := by
  unfold absorb; split <;> rfl

@[simp] theorem absorbAll_nil (s : State) : absorbAll [] s = s := rfl
@[simp] theorem absorbAll_cons (x : Byte) (xs : List Byte) (s : State) :
    absorbAll (x :: xs) s = absorbAll xs (absorb x s) := rfl

theorem absorbAll_append (xs ys : List Byte) (s : State) :
    absorbAll (xs ++ ys) s = absorbAll ys (absorbAll xs s) := by
  simp [absorbAll, List.foldl_append]

@[simp] theorem absorbAll_count (xs : List Byte) (s : State) : (absorbAll xs s).count = s.count := by
  induction xs generalizing s <;> simp_all
@[simp] theorem absorbAll_phase (xs : List Byte) (s : State) : (absorbAll xs s).phase = s.phase := by
  induction xs generalizing s <;> simp_all
@[simp] theorem absorbAll_faultCode (xs : List Byte) (s : State) : (absorbAll xs s).faultCode = s.faultCode := by
  induction xs generalizing s <;> simp_all
@[simp] theorem absorbAll_pos (xs : List Byte) (s : State) : (absorbAll xs s).pos = s.pos := by
  induction xs generalizing s <;> simp_all
@[simp] theorem absorbAll_stream (xs : List Byte) (s : State) : (absorbAll xs s).stream = s.stream := by
  induction xs generalizing s <;> simp_all
@[simp] theorem absorbAll_pending (xs : List Byte) (s : State) : (absorbAll xs s).pending = s.pending := by
  induction xs generalizing s <;> simp_all
@[simp] theorem absorbAll_out (xs : List Byte) (s : State) : (absorbAll xs s).out = s.out := by
  induction xs generalizing s <;> simp_all
@[simp] theorem absorbAll_rst (xs : List Byte) (s : State) : (absorbAll xs s).rst = s.rst := by
  induction xs generalizing s <;> simp_all
@[simp] theorem absorbAll_freeIdx (xs : List Byte) (s : State) : (absorbAll xs s).freeIdx = s.freeIdx := by
  induction xs generalizing s <;> simp_all

/-! ## The buffer keeps its canonical form -/

theorem memory_wf_iff {buf : List Byte} {fill : Fin 64} : Memory.wf buf fill = true ↔ buf.length = fill.val := by
  simp [Memory.wf]

theorem reset_memory_wf : Memory.wf State.reset.buf State.reset.fill = true := rfl

theorem initValues_wf (s : State) : Memory.wf (initValues s).buf (initValues s).fill = true := rfl

theorem hardwareReset_wf (s : State) : Memory.wf (hardwareReset s).buf (hardwareReset s).fill = true := rfl

theorem absorb_wf (x : Byte) {s : State} (h : Memory.wf s.buf s.fill = true) :
    Memory.wf (absorb x s).buf (absorb x s).fill = true := by
  rw [memory_wf_iff] at h
  rcases absorb_cases x s with ⟨b, -, e⟩ | ⟨hne, e⟩ <;> rw [e, memory_wf_iff]
  · rfl
  · have := s.fill.isLt
    simp only [List.length_append, List.length_singleton, Fin.val_add]
    rw [h] at hne ⊢
    change _ = (s.fill.val + 1) % 64
    omega

theorem absorbAll_wf (xs : List Byte) {s : State} (h : Memory.wf s.buf s.fill = true) :
    Memory.wf (absorbAll xs s).buf (absorbAll xs s).fill = true := by
  induction xs generalizing s with
  | nil => exact h
  | cons x xs ih => exact ih (absorb_wf x h)

/-- The fill count moves by one modulo 64 with every byte (R15, R140). -/
theorem absorb_fill (x : Byte) {s : State} (h : Memory.wf s.buf s.fill = true) :
    (absorb x s).fill.val = (s.fill.val + 1) % 64 := by
  rw [memory_wf_iff] at h
  rcases absorb_cases x s with ⟨b, hb, e⟩ | ⟨-, e⟩ <;> rw [e]
  · have : (s.buf ++ [x]).length = 64 := by rw [← hb]; simp
    simp at this
    change 0 = _
    omega
  · rw [Fin.val_add]
    rfl

theorem absorbAll_fill (xs : List Byte) {s : State} (h : Memory.wf s.buf s.fill = true) :
    (absorbAll xs s).fill.val = (s.fill.val + xs.length) % 64 := by
  induction xs generalizing s with
  | nil => simp; have := s.fill.isLt; omega
  | cons x xs ih =>
    rw [absorbAll_cons, ih (absorb_wf x h), absorb_fill x h, List.length_cons]
    omega

/-! ## The guards of the phase, and `exec` -/

/-- Everything `whenReady` can do (R181, R185). -/
theorem whenReady_cases (act : State → Answer) (s : State) :
    (s.phase = .ready ∧ whenReady act s = act s) ∨
    (s.phase = .done ∧ whenReady act s = .next (raise .usage s)) ∨
    (s.phase = .fault ∧ whenReady act s = stuck s) := by
  unfold whenReady
  cases h : s.phase <;> simp

/-- Everything `whenAlive` can do (R165, R185). -/
theorem whenAlive_cases (act : State → Answer) (s : State) :
    (s.phase ≠ .fault ∧ whenAlive act s = act s) ∨ (s.phase = .fault ∧ whenAlive act s = stuck s) := by
  unfold whenAlive
  cases h : s.phase <;> simp

@[simp] theorem whenReady_of_ready {act : State → Answer} {s : State} (h : s.phase = .ready) :
    whenReady act s = act s := by simp [whenReady, h]

@[simp] theorem whenReady_of_done {act : State → Answer} {s : State} (h : s.phase = .done) :
    whenReady act s = .next (raise .usage s) := by simp [whenReady, h]

@[simp] theorem whenReady_of_fault {act : State → Answer} {s : State} (h : s.phase = .fault) :
    whenReady act s = stuck s := by simp [whenReady, h]

/-- What a command does in phase READY, as one relation (R125, R141, R150, R165). -/
inductive Ran : Instr → State → State → Prop where
  | block (b : Block) (s : State) : Ran (.block b) s (blockEffect b s)
  | update (len : Int) (d : List Byte) (s : State) (lo : 0 ≤ len) (hi : len ≤ d.length) :
      Ran (.update len d) s (updateEffect len.toNat d s)
  | badLength (len : Int) (d : List Byte) (s : State) (bad : len < 0 ∨ (d.length : Int) < len) :
      Ran (.update len d) s (raise .length s)
  | finalize (s : State) : Ran .finalize s (finalizeEffect s)
  | reset (s : State) : Ran .reset s (resetEffect s)

/-- Everything `exec` can answer with a next state. -/
theorem exec_next {i : Instr} {s t : State} (h : exec i s = .next t) :
    (s.phase = .ready ∧ Ran i s t) ∨
    (s.phase = .done ∧ i = .reset ∧ t = resetEffect s) ∨
    (s.phase = .done ∧ i ≠ .reset ∧ t = raise .usage s) := by
  cases i with
  | block b =>
    rcases whenReady_cases (fun t => .next (blockEffect b t)) s with ⟨p, e⟩ | ⟨p, e⟩ | ⟨p, e⟩ <;>
      simp only [exec, execBlock, e, stuck, Host.Outcome.next.injEq, reduceCtorEq] at h
    · exact .inl ⟨p, h ▸ .block b s⟩
    · exact .inr (.inr ⟨p, by simp, h.symm⟩)
  | update len d =>
    rcases whenReady_cases (fun t =>
        if len < 0 then .next (raise .length t)
        else if (d.length : Int) < len then .next (raise .length t)
        else .next (updateEffect len.toNat d t)) s with ⟨p, e⟩ | ⟨p, e⟩ | ⟨p, e⟩ <;>
      simp only [exec, execUpdate, e, stuck, reduceCtorEq, Host.Outcome.next.injEq] at h
    · refine .inl ⟨p, ?_⟩
      split at h
      · next neg => cases h; exact .badLength len d s (.inl neg)
      · split at h
        · next big => cases h; exact .badLength len d s (.inr big)
        · cases h; exact .update len d s (by omega) (by omega)
    · exact .inr (.inr ⟨p, by simp, h.symm⟩)
  | finalize =>
    rcases whenReady_cases (fun t => .next (finalizeEffect t)) s with ⟨p, e⟩ | ⟨p, e⟩ | ⟨p, e⟩ <;>
      simp only [exec, execFinalize, e, stuck, Host.Outcome.next.injEq, reduceCtorEq] at h
    · exact .inl ⟨p, h ▸ .finalize s⟩
    · exact .inr (.inr ⟨p, by simp, h.symm⟩)
  | reset =>
    rcases whenAlive_cases (fun t => .next (resetEffect t)) s with ⟨p, e⟩ | ⟨p, e⟩ <;>
      simp only [exec, execReset, e, stuck, Host.Outcome.next.injEq, reduceCtorEq] at h
    · cases q : s.phase with
      | ready => exact .inl ⟨rfl, h ▸ .reset s⟩
      | done => exact .inr (.inl ⟨rfl, rfl, h.symm⟩)
      | fault => exact absurd q p

/-- Everything `step` can answer with a next state (R78, R210). -/
theorem step_next {s t : State} (h : step s = .next t) :
    (s.rst = true ∧ t = hardwareReset s) ∨
    (s.rst = false ∧ s.phase ≠ .fault ∧
      ((∃ i, decode (fetch s) = .ok i ∧ exec i s = .next t) ∨
       (decode (fetch s) = .empty ∧ t = endOfStream s) ∨
       (∃ x, decode (fetch s) = .illegal x ∧ t = raise .illegal s) ∨
       (∃ op, decode (fetch s) = .short op ∧ t = raise (shortFault s.phase) s))) := by
  unfold step at h
  cases r : s.rst with
  | true =>
    simp only [r, if_true, Host.Outcome.next.injEq] at h
    exact .inl ⟨rfl, h.symm⟩
  | false =>
    simp only [r, Bool.false_eq_true, if_false] at h
    split at h
    · simp [stuck] at h
    · next np =>
      refine .inr ⟨rfl, np, ?_⟩
      split at h
      · next i e => exact .inl ⟨i, e, h⟩
      · next e => cases h; exact .inr (.inl ⟨e, rfl⟩)
      · next x e => cases h; exact .inr (.inr (.inl ⟨x, e, rfl⟩))
      · next op e => cases h; exact .inr (.inr (.inr ⟨op, e, rfl⟩))

end Sys2Proof.Laws
end

