-- ==== Sys2Proof/Laws/PerInstr.lean ====
section
/-!
SUPPORT. Statements for all instructions, one lemma per constructor. `OpcodeRow` says of a command as syntax that it is
encoded under the opcode byte of its own row of the table and that the decoder reads that row from the byte (30_encoding.md
R71, R74).
-/
namespace Sys2Proof.Laws.OpcodeRow

/-- The row of the opcode table a command belongs to (R74). -/
def rowOf : Instr → Op
  | .block _ => .block
  | .update _ _ => .update
  | .finalize => .finalize
  | .reset => .reset

/-- The command's first byte is the opcode of its row, and that byte selects that row. -/
def Statement (i : Instr) : Prop :=
  (encode i).head? = some (opcodeByte i) ∧ decodeOp (opcodeByte i) = some (rowOf i)

theorem block (b : Block) : Statement (.block b) := ⟨rfl, rfl⟩

theorem update (len : Int) (d : List Byte) : Statement (.update len d) := ⟨rfl, rfl⟩

theorem finalize : Statement .finalize := ⟨rfl, rfl⟩

theorem reset : Statement .reset := ⟨rfl, rfl⟩

end Sys2Proof.Laws.OpcodeRow
end

