-- ==== Sys2Proof/Tests/Slice0.lean ====
section
/-!
SUPPORT. The model's own tests. Expected values are copied from spec/95_test_vectors.md or from the worked examples of the
rule named; the words of the decode tests are written out from 30_encoding.md R71. The witnesses at the end meet the
hypotheses of the statements.
-/
namespace Sys2Proof.Tests

open Sys2Proof.Machine Sys2Proof.Claims

/-- The next state of an answer. -/
def nextOf : Answer → Option State
  | .next t => some t
  | .fault _ => none
  | .refused _ => none

/-- The phase and the fault code an answer leaves. -/
def codesOf (a : Answer) : Option (Phase × FaultCode × Nat) := (nextOf a).map fun t => (t.phase, t.faultCode, t.pos)

/-- The reset state with a stream submitted. -/
def withStream (bs : List Byte) : State := { State.reset with stream := bs }

/-- A consumed block (phase DONE) with a stream submitted. -/
def doneWith (bs : List Byte) : State := { State.reset with phase := .done, stream := bs }

/-- A block in phase FAULT. -/
def faulted (rst : Bool) : State := { State.reset with phase := .fault, faultCode := .usage, rst := rst }

/-- `"abc"`. -/
def abc : List Byte := [0x61#8, 0x62#8, 0x63#8]

/-- The padded block of `"abc"` (95 section 3). -/
def abcBlock : Block := ⟨([0x61#8, 0x62#8, 0x63#8, 0x80#8] ++ List.replicate 59 0x00#8 ++ [0x18#8]).toArray, by decide⟩

/-! ## WellFormed: each check refuses an ill-formed term (R73) -/

theorem test_wf_refuses_len_below_min : (Instr.update (-2147483649) []).wf = false := by decide
theorem test_wf_refuses_len_above_max : (Instr.update 2147483648 []).wf = false := by decide
theorem test_wf_accepts_the_ends :
    (Instr.update (-2147483648) []).wf = true ∧ (Instr.update 2147483647 []).wf = true := by decide

/-! ## Decode: words written out from R71 -/

theorem test_decode_block : decode (0x01#8 :: (List.replicate 63 0x00#8 ++ [0xFF#8])) =
    .ok (.block ⟨(List.replicate 63 0x00#8 ++ [0xFF#8]).toArray, by decide⟩) := by decide
theorem test_decode_block_short : decode (0x01#8 :: List.replicate 63 0x00#8) = .short .block := by decide
theorem test_decode_update : decode [0x02#8, 0x00#8, 0x00#8, 0x00#8, 0x03#8, 0x61#8, 0x62#8, 0x63#8, 0x03#8] =
    .ok (.update 3 [0x61#8, 0x62#8, 0x63#8, 0x03#8]) := by decide
theorem test_decode_update_most_negative : decode [0x02#8, 0x80#8, 0x00#8, 0x00#8, 0x00#8] =
    .ok (.update (-2147483648) []) := by decide
theorem test_decode_update_short : decode [0x02#8, 0x00#8, 0x00#8] = .short .update := by decide
theorem test_decode_finalize : decode [0x03#8] = .ok .finalize := by decide
theorem test_decode_reset : decode [0x04#8, 0x03#8] = .ok .reset := by decide
theorem test_decode_illegal : decode [0x00#8] = .illegal 0x00#8 ∧ decode [0x05#8, 0x03#8] = .illegal 0x05#8 := by decide
theorem test_decode_empty : decode [] = .empty := by decide
theorem test_encode_new_with : encodePseudo true (.newWith abc) =
    [0x04#8, 0x02#8, 0x00#8, 0x00#8, 0x00#8, 0x03#8, 0x61#8, 0x62#8, 0x63#8] := by decide

/-! ## Each table row runs as the first command after reset -/

theorem test_table_rows_run :
    (nextOf (step (State.reset.withFetchWord 8 0x01))).isSome = true ∧
    (nextOf (step (State.reset.withFetchWord 8 0x02))).isSome = true ∧
    (nextOf (step (State.reset.withFetchWord 8 0x03))).isSome = true ∧
    (nextOf (step (State.reset.withFetchWord 8 0x04))).isSome = true := by decide
theorem test_table_rows_decode :
    decodeTableWord 8 0x01 = some (.block (Vector.replicate 64 0x00#8)) ∧
    decodeTableWord 8 0x02 = some (.update 0 (List.replicate 60 0x00#8)) ∧
    decodeTableWord 8 0x03 = some .finalize ∧ decodeTableWord 8 0x04 = some .reset ∧
    decodeTableWord 8 0x00 = none := by decide

/-! ## Primitive vectors (95 section 2) -/

theorem test_rotl : rotl 5 0x67452301#32 = 0xE8A4602C#32 ∧ rotl 30 0xEFCDAB89#32 = 0x7BF36AE2#32 ∧
    rotl 1 0x80000000#32 = 0x00000001#32 := by decide
theorem test_mux :
    fMux 0 0xAAAAAAAA#32 0xCCCCCCCC#32 0xF0F0F0F0#32 = 0xD8D8D8D8#32 ∧
    fMux 1 0xAAAAAAAA#32 0xCCCCCCCC#32 0xF0F0F0F0#32 = 0x96969696#32 ∧
    fMux 2 0xAAAAAAAA#32 0xCCCCCCCC#32 0xF0F0F0F0#32 = 0xE8E8E8E8#32 ∧
    fMux 3 0xAAAAAAAA#32 0xCCCCCCCC#32 0xF0F0F0F0#32 = 0x96969696#32 := by decide
theorem test_round_constants :
    kMux (fsel 19) = 0x5A827999#32 ∧ kMux (fsel 20) = 0x6ED9EBA1#32 ∧
    kMux (fsel 59) = 0x8F1BBCDC#32 ∧ kMux (fsel 60) = 0xCA62C1D6#32 := by decide
theorem test_adders :
    add32 [0xE8A4602C#32, 0x98BADCFE#32, 0xC3D2E1F0#32, 0x5A827999#32, 0x61626380#32] = 0x0116FC33#32 ∧
    add64 0xFFFFFFFFFFFFFFF8#64 (BitVec.ofNat 64 (8 * 3)) = 0x10#64 := by decide
theorem test_converters :
    be32 0x61#8 0x62#8 0x63#8 0x80#8 = 0x61626380#32 ∧ bytes32 0xA9993E36#32 = [0xa9#8, 0x99#8, 0x3e#8, 0x36#8] ∧
    bytes64 0x0123456789ABCDEF#64 = [0x01#8, 0x23#8, 0x45#8, 0x67#8, 0x89#8, 0xab#8, 0xcd#8, 0xef#8] ∧
    sextLen 0x80000000#32 = -2147483648 := by decide
theorem test_pad :
    pad 55 0x1B8#64 = [0x80#8, 0#8, 0#8, 0#8, 0#8, 0#8, 0#8, 0x01#8, 0xb8#8] ∧
    pad 63 0x1F8#64 = 0x80#8 :: (List.replicate 56 0#8 ++ [0#8, 0#8, 0#8, 0#8, 0#8, 0#8, 0x01#8, 0xf8#8]) := by decide

/-! ## One compression in full (95 section 3) -/

/-- The 80 schedule words of 95 section 3. -/
def abcSchedule : Sched := #v[
   0x61626380#32, 0x00000000#32, 0x00000000#32, 0x00000000#32,
   0x00000000#32, 0x00000000#32, 0x00000000#32, 0x00000000#32,
   0x00000000#32, 0x00000000#32, 0x00000000#32, 0x00000000#32,
   0x00000000#32, 0x00000000#32, 0x00000000#32, 0x00000018#32,
   0xC2C4C700#32, 0x00000000#32, 0x00000030#32, 0x85898E01#32,
   0x00000000#32, 0x00000060#32, 0x0B131C03#32, 0x00000030#32,
   0x85898EC1#32, 0x16263806#32, 0x00000000#32, 0x00000180#32,
   0x2C4C700C#32, 0x000000F0#32, 0x93AFB507#32, 0x5898E048#32,
   0x8E9A9202#32, 0x00000600#32, 0xB131C0F0#32, 0x16263BC6#32,
   0x4EBED41E#32, 0x626380A1#32, 0x16263806#32, 0x000018C0#32,
   0xD2E138C4#32, 0x00000F00#32, 0x3AFB5079#32, 0x898E04E5#32,
   0xE2BA3C2B#32, 0x000060C0#32, 0x053A37CD#32, 0x74458547#32,
   0xDA9415ED#32, 0x26380A16#32, 0x626383A1#32, 0x4EBF54DE#32,
   0x3835B44B#32, 0x0000F600#32, 0x1E84C7A3#32, 0x98E04D98#32,
   0x651D16A0#32, 0x62658CA1#32, 0x458544D6#32, 0x44584CB7#32,
   0x7BA06619#32, 0x6380AEA2#32, 0x0AE55269#32, 0x627B49A1#32,
   0x7CD45C9D#32, 0x000F0000#32, 0xFB50753A#32, 0xEC6765E8#32,
   0xBA3C2BE2#32, 0x0060C000#32, 0x3A37CD05#32, 0x458546F4#32,
   0xB8599DD6#32, 0x380A1A26#32, 0x01E02203#32, 0xE7CC3456#32,
   0xE6E60B69#32, 0x00F60A00#32, 0x5795EF4F#32, 0x822E0879#32]

theorem test_schedule_abc : schedule abcBlock = abcSchedule := by decide +kernel
theorem test_round_zero :
    sha1Round abcSchedule (loadWork Chain.iv) 0 =
      ⟨0x0116FC33#32, 0x67452301#32, 0x7BF36AE2#32, 0x98BADCFE#32, 0x10325476#32⟩ := by decide +kernel
theorem test_rounds_abc :
    rounds abcSchedule (loadWork Chain.iv) =
      ⟨0x42541B35#32, 0x5738D5E1#32, 0x21834873#32, 0x681E6DF6#32, 0xD8FDF6AD#32⟩ := by decide +kernel
theorem test_compress_abc :
    compress Chain.iv abcBlock = ⟨0xA9993E36#32, 0x4706816A#32, 0xBA3E2571#32, 0x7850C26C#32, 0x9CD0D89D#32⟩ := by
  rw [compress, test_schedule_abc, test_rounds_abc]
  decide
theorem test_serialize_abc :
    (serialize ⟨0xA9993E36#32, 0x4706816A#32, 0xBA3E2571#32, 0x7850C26C#32, 0x9CD0D89D#32⟩).toList =
      [0xa9#8, 0x99#8, 0x3e#8, 0x36#8, 0x47#8, 0x06#8, 0x81#8, 0x6a#8, 0xba#8, 0x3e#8, 0x25#8, 0x71#8, 0x78#8, 0x50#8,
       0xc2#8, 0x6c#8, 0x9c#8, 0xd0#8, 0xd8#8, 0x9d#8] := by decide

/-! ## The commands (95 sections 6 and 7), one step each -/

/-- P7: BLOCK changes `h` only. -/
theorem test_exec_block_abc :
    exec (.block abcBlock) State.reset =
      .next { State.reset with
        h := ⟨0xA9993E36#32, 0x4706816A#32, 0xBA3E2571#32, 0x7850C26C#32, 0x9CD0D89D#32⟩, pos := 65 } := by
  rw [← test_compress_abc]
  rfl

/-- P1, first command: `UPDATE "abc"`. -/
theorem test_exec_update_abc :
    nextOf (exec (.update 3 abc) State.reset) =
      some { State.reset with buf := abc, fill := 3, count := 0x18#64, pos := 8 } := by decide

/-- X6 and X8: a negative length and a length beyond the bytes supplied. -/
theorem test_exec_update_bad_length :
    codesOf (exec (.update (-1) []) State.reset) = some (.fault, .length, 0) ∧
    codesOf (exec (.update 5 [0x61#8, 0x62#8]) State.reset) = some (.fault, .length, 0) := by decide

/-- P1, second command: FINALIZE after `UPDATE "abc"` compresses the block of 95 section 3. -/
theorem test_exec_finalize_abc :
    (nextOf (exec .finalize { State.reset with buf := abc, fill := 3, count := 0x18#64 })).map
        (fun t => (t.h, t.buf, t.fill, t.count)) =
      some (⟨0xA9993E36#32, 0x4706816A#32, 0xBA3E2571#32, 0x7850C26C#32, 0x9CD0D89D#32⟩, [], 0, 0x18#64) := by
  decide +kernel

/-- X15: FINALIZE in DONE. -/
theorem test_exec_finalize_done : codesOf (exec .finalize (doneWith [])) = some (.fault, .usage, 0) := by decide

/-- X21: RESET in DONE. -/
theorem test_exec_reset_done :
    nextOf (exec .reset { doneWith [] with count := 0x18#64, h := ⟨0#32, 0#32, 0#32, 0#32, 0#32⟩ }) =
      some { State.reset with pos := 1 } := by decide

/-- X22: RESET is not executed in FAULT; hardware reset leaves it. -/
theorem test_exec_reset_fault : nextOf (exec .reset (faulted false)) = none ∧
    nextOf (step (faulted true)) = some State.reset := by decide

/-- X18, X19, X20: the priority of faults in DONE. -/
theorem test_fault_priority :
    codesOf (step (doneWith [0x02#8, 0xff#8, 0xff#8, 0xff#8, 0xff#8])) = some (.fault, .usage, 0) ∧
    codesOf (step (doneWith [0x01#8])) = some (.fault, .usage, 0) ∧
    codesOf (step (doneWith [0x05#8])) = some (.fault, .illegal, 0) := by decide

/-- X10, X12: streams that end inside an operand. -/
theorem test_short_operands :
    codesOf (step (withStream [0x02#8])) = some (.fault, .length, 0) ∧
    codesOf (step (withStream [0x01#8])) = some (.fault, .length, 0) := by decide

/-- X28: the state persists from one stream to the next, and `pos` restarts at 0. -/
theorem test_next_stream :
    nextOf (step { withStream [0x04#8] with pos := 1, pending := [[0x03#8]] }) =
      some (withStream [0x03#8]) := by decide

/-! ## Witnesses: a state and operands that meet the hypotheses of each statement, at the ends of the ranges -/

/-- A state whose buffer holds `n` bytes `61`. -/
def filled (n : Fin 64) : State := { State.reset with buf := List.replicate n.val 0x61#8, fill := n }

/-- A consumed block with other contents than the reset state's. -/
def used (bs : List Byte) : State :=
  { withStream bs with h := ⟨1#32, 2#32, 3#32, 4#32, 5#32⟩, count := 8#64, buf := [0x61#8], fill := 1, freeIdx := 7 }

theorem inv_withStream (bs : List Byte) : Inv (withStream bs) :=
  ⟨fun _ => rfl, fun _ => rfl, (fun h => nomatch h), by simp [CodeInv, withStream, State.reset], Nat.zero_le _⟩

theorem witness_ResetValuesAsTabulated :
    State.reset.phase ≠ .fault ∧ (doneWith []).phase ≠ .fault := by decide
theorem witness_HardwareResetInstallsInit :
    (withStream [0x03#8]).rst = false ∧ (faulted true).rst = true ∧ (faulted true).phase = .fault ∧
      ∃ t, step (faulted true) = .next t := ⟨rfl, rfl, rfl, _, rfl⟩
theorem witness_HardwareResetKeepsDelivered : (faulted true).rst = true := rfl
theorem witness_ResetCommandReinitializes :
    State.reset.phase ≠ .fault ∧ (doneWith []).phase ≠ .fault ∧ (faulted false).phase = .fault := by decide
theorem witness_NoResidueAcrossReset :
    ∃ s₁ s₂ t₁ t₂ u₁, s₁ = withStream [0x04#8, 0x03#8] ∧ s₂ = used [0x04#8, 0x03#8] ∧ s₁ ≠ s₂ ∧
      s₁.phase ≠ .fault ∧ s₂.phase ≠ .fault ∧ s₁.faultCode = s₂.faultCode ∧ s₁.pos = s₂.pos ∧ HostSame s₁ s₂ ∧
      exec .reset s₁ = .next t₁ ∧ exec .reset s₂ = .next t₂ ∧ stepN 1 t₁ = some u₁ ∧ u₁.phase ≠ .fault :=
  ⟨_, _, resetEffect (withStream [0x04#8, 0x03#8]), resetEffect (used [0x04#8, 0x03#8]),
    finalizeEffect (resetEffect (withStream [0x04#8, 0x03#8])),
    rfl, rfl, by decide, by decide, by decide, rfl, rfl, ⟨rfl, rfl, rfl⟩, rfl, rfl, rfl, (fun h => nomatch h)⟩
theorem witness_NoResidueAcrossReset_fault :
    ∃ t₁ u₁, exec .reset (withStream [0x04#8, 0x00#8]) = .next t₁ ∧ stepN 1 t₁ = some u₁ ∧ u₁.phase = .fault :=
  ⟨resetEffect (withStream [0x04#8, 0x00#8]), raise .illegal (resetEffect (withStream [0x04#8, 0x00#8])), rfl, rfl, rfl⟩
theorem witness_StepKeepsInvariant :
    Inv (withStream [0x03#8]) ∧ ∃ t, step (withStream [0x03#8]) = .next t := ⟨inv_withStream _, _, rfl⟩
theorem witness_DecodeOperandsAsTabulated :
    (List.replicate 63 0x00#8).length < 64 ∧ 64 ≤ (List.replicate 64 0x00#8).length ∧ [0x01#8, 0x02#8, 0x03#8].length < 4 ∧
    0 ≤ sextLen (be32 0x00#8 0x00#8 0x00#8 0x00#8) ∧ (0x05#8 : Byte) ≠ 0x01#8 ∧ (0x05#8 : Byte) ≠ 0x02#8 ∧
    (0x05#8 : Byte) ≠ 0x03#8 ∧ (0x05#8 : Byte) ≠ 0x04#8 := by decide
theorem witness_DigestBytesBigEndian : (filled 63).phase = .ready := rfl
theorem witness_DecodeOfEncodeIsTheCommand :
    (Instr.update 3 abc).wf = true ∧ (Instr.update (-2147483648) []).wf = true ∧
      (Instr.block abcBlock).wf = true ∧ Instr.finalize.wf = true ∧ Instr.reset.wf = true := by decide
theorem witness_DecodedCommandIsItsEncoding : decode [0x04#8, 0x03#8] = .ok .reset := rfl
theorem witness_EncodedLengthOfCommands :
    ([0x03#8, 0x02#8, 0#8, 0#8, 0#8, 1#8, 0x61#8, 0x04#8] : List Byte) =
        [0x03#8] ++ encode (.update 1 [0x61#8]) ++ [0x04#8] ∧
      (∀ len d, Instr.update 1 [0x61#8] = .update len d → len = d.length) :=
  ⟨by decide, fun _ _ h => by cases h; rfl⟩
theorem witness_StepRunsDecodedCommand :
    (withStream [0x03#8]).rst = false ∧ (withStream [0x03#8]).phase ≠ .fault ∧
      decode ((withStream [0x03#8]).stream.drop (withStream [0x03#8]).pos) = .ok .finalize := by decide
theorem witness_FaultPriorityOfStep :
    fetch (withStream [0x05#8]) = [0x05#8] ∧ fetch (doneWith [0x01#8]) = [0x01#8] ∧
      lengthBad 0x01#8 (List.replicate 63 0#8) = true ∧ lengthBad 0x01#8 (List.replicate 64 0#8) = false ∧
      lengthBad 0x02#8 [0#8, 0#8, 0#8] = true ∧ lengthBad 0x02#8 [0#8, 0#8, 0#8, 0#8] = false ∧
      lengthBad 0x02#8 [0x80#8, 0#8, 0#8, 0#8] = true ∧ lengthBad 0x02#8 [0#8, 0#8, 0#8, 1#8] = true ∧
      lengthBad 0x02#8 [0#8, 0#8, 0#8, 1#8, 0x61#8] = false ∧ lengthBad 0x04#8 [] = false := by decide
theorem witness_AdvanceOfPos :
    (∃ t, exec .finalize State.reset = .next t ∧ t.phase ≠ .fault) ∧
      (∃ t, exec .finalize (doneWith []) = .next t ∧ t.phase = .fault) :=
  ⟨⟨_, rfl, by decide⟩, _, rfl, rfl⟩
theorem witness_EndOfStreamHoldsState :
    State.reset.rst = false ∧ State.reset.phase ≠ .fault ∧ State.reset.stream.length ≤ State.reset.pos ∧
      State.reset.pending = [] ∧ (submit [0x03#8] State.reset).pending = [[0x03#8]] := by decide
theorem witness_RunReachesItsStop : State.reset.rst = false := rfl
theorem witness_PhaseChangesOnlyAsTabulated :
    (∃ t, step (withStream [0x03#8]) = .next t ∧ t.phase = .done ∧ (withStream [0x03#8]).phase ≠ .done) ∧
      (∃ t, step (doneWith [0x04#8]) = .next t ∧ t.phase = .ready ∧ (doneWith [0x04#8]).phase = .done) ∧
      (∃ t, step (faulted true) = .next t ∧ t.phase = .ready ∧ (faulted true).phase = .fault) ∧
      (∃ t, step (withStream [0x00#8]) = .next t ∧ t.phase = .fault ∧ faultCause .ready 0x00#8 [] t.faultCode) ∧
      (∃ t, step (doneWith [0x03#8]) = .next t ∧ t.phase = .fault ∧ faultCause .done 0x03#8 [] t.faultCode) ∧
      (∃ t, step (withStream [0x01#8]) = .next t ∧ t.phase = .fault ∧ faultCause .ready 0x01#8 [] t.faultCode) :=
  ⟨⟨_, rfl, rfl, by decide⟩, ⟨_, rfl, rfl, rfl⟩, ⟨_, rfl, rfl, rfl⟩,
    ⟨_, rfl, rfl, by simp [faultCause, raise, decodeFault]⟩, ⟨_, rfl, rfl, by simp [faultCause, raise]⟩,
    ⟨_, rfl, rfl, by simp [faultCause, raise, decodeFault, shortFault, withStream, State.reset, lengthBad]⟩⟩
theorem witness_OnlyFinalizeDelivers : ∃ t, step (withStream [0x03#8]) = .next t := ⟨_, rfl⟩
theorem witness_WhoWritesTheRegisters :
    ∃ t, step (withStream [0x02#8, 0#8, 0#8, 0#8, 1#8, 0x61#8]) = .next t ∧ t.phase ≠ .fault ∧
      (withStream [0x02#8, 0#8, 0#8, 0#8, 1#8, 0x61#8]).rst = false ∧
      t.count ≠ (withStream [0x02#8, 0#8, 0#8, 0#8, 1#8, 0x61#8]).count ∧ t.buf ≠ [] :=
  ⟨updateEffect 1 [0x61#8] (withStream [0x02#8, 0#8, 0#8, 0#8, 1#8, 0x61#8]), rfl, by decide, rfl, by decide, by decide⟩
theorem witness_WhoWritesTheRegisters_h :
    ∃ t, step (used [0x04#8]) = .next t ∧ t.phase ≠ .fault ∧ (used [0x04#8]).rst = false ∧ t.h ≠ (used [0x04#8]).h :=
  ⟨resetEffect (used [0x04#8]), rfl, by decide, rfl, by decide⟩
theorem witness_EveryCommandAnswers : State.reset.phase ≠ .fault ∧ (doneWith []).phase ≠ .fault := by decide
theorem witness_UsageFaultInDone :
    (doneWith []).rst = false ∧ (doneWith []).phase = .done ∧ fetch (doneWith [0x01#8]) = [0x01#8] ∧
      fetch (doneWith [0x02#8]) = [0x02#8] ∧ fetch (doneWith [0x03#8]) = [0x03#8] ∧
      fetch (doneWith [0x04#8]) = [0x04#8] := by decide
theorem witness_LengthFaultsInReady :
    (withStream []).rst = false ∧ (withStream []).phase = .ready ∧
      fetch (withStream [0x02#8, 0x80#8, 0#8, 0#8, 0#8]) = [0x02#8, 0x80#8, 0#8, 0#8, 0#8] ∧
      2 ^ 31 ≤ rawLen 0x80#8 0#8 0#8 0#8 ∧
      fetch (withStream [0x02#8, 0#8, 0#8, 0#8, 1#8]) = [0x02#8, 0#8, 0#8, 0#8, 1#8] ∧
      ([] : List Byte).length < rawLen 0#8 0#8 0#8 1#8 ∧
      fetch (withStream [0x02#8, 0#8, 0#8, 0#8]) = [0x02#8, 0#8, 0#8, 0#8] ∧ [0#8, 0#8, 0#8].length < 4 ∧
      fetch (withStream (0x01#8 :: List.replicate 63 0#8)) = 0x01#8 :: List.replicate 63 0#8 ∧
      (List.replicate 63 0#8).length < 64 := by decide
theorem witness_IllegalOpcodeFaults :
    (withStream [0x00#8]).phase = .ready ∧ (doneWith [0x05#8]).phase = .done ∧
      (withStream [0x00#8]).rst = false ∧ (doneWith [0x05#8]).rst = false ∧
      fetch (withStream [0x00#8]) = [0x00#8] ∧ fetch (doneWith [0x05#8]) = [0x05#8] ∧
      fetch (doneWith [0xff#8]) = [0xff#8] := by decide
theorem witness_FaultIsSticky : (faulted false).phase = .fault ∧ (faulted false).rst = false := ⟨rfl, rfl⟩
theorem witness_OnlyHardwareResetLeavesFault :
    (faulted true).phase = .fault ∧ (faulted true).rst = true ∧ ∃ t, step (faulted true) = .next t := ⟨rfl, rfl, _, rfl⟩
theorem witness_DigestPortStableInDone :
    (doneWith []).phase = .done ∧ ∃ t, step (doneWith []) = .next t ∧ t.phase = .done := ⟨rfl, _, rfl, rfl⟩
theorem witness_RotateLeftMovesBits : (0 < 1 ∧ 1 < 32) ∧ (0 < 31 ∧ 31 < 32) := by decide
theorem witness_AddersWrap : [1#32, 2#32].Perm [2#32, 1#32] := List.Perm.swap _ _ _
theorem witness_MemReadIsBigEndianSum : 60 + 4 ≤ 64 ∧ 56 + 8 ≤ 64 ∧ 63 + 1 ≤ 64 ∧ 0 + 1 ≤ 64 := by decide

/-- The working registers before round `t` of the all-zero block, by the equations of R123. -/
def zeroRegs (h : Chain) : Nat → Work
  | 0 => loadWork h
  | t + 1 =>
    let r := zeroRegs h t
    ⟨r.a.rotateLeft 5 + roundFun t r.b r.c r.d + r.e + roundConst t + 0#32, r.a, r.b.rotateLeft 30, r.c, r.d⟩

theorem witness_CompressMeetsRoundEquations :
    IsSchedule (Vector.replicate 64 0x00#8) (fun _ => 0#32) ∧
      IsRounds Chain.iv (fun _ => 0#32) (fun t => (zeroRegs Chain.iv t).a) (fun t => (zeroRegs Chain.iv t).b)
        (fun t => (zeroRegs Chain.iv t).c) (fun t => (zeroRegs Chain.iv t).d) (fun t => (zeroRegs Chain.iv t).e) :=
  ⟨⟨by decide, fun _ _ _ => by simp only; decide⟩, ⟨rfl, rfl, rfl, rfl, rfl⟩, fun _ _ => ⟨rfl, rfl, rfl, rfl, rfl⟩⟩

theorem witness_BlockCompressesOnly :
    State.reset.phase = .ready ∧ (doneWith []).phase = .done ∧ (withStream []).rst = false ∧
      fetch (withStream (0x01#8 :: List.replicate 63 0#8)) = 0x01#8 :: List.replicate 63 0#8 := by decide
theorem witness_AbsorbAppendsOrCompresses :
    Memory.wf (filled 62).buf (filled 62).fill = true ∧ Memory.wf (filled 63).buf (filled 63).fill = true ∧
      (filled 62).fill.val < 63 ∧ (filled 63).fill.val = 63 := by decide
theorem witness_MemWriteIsSuccessiveAbsorb :
    Memory.wf (filled 55).buf (filled 55).fill = true ∧ Memory.wf (filled 56).buf (filled 56).fill = true := by decide
theorem witness_UpdateAbsorbsAndCounts :
    State.reset.phase = .ready ∧ (0 : Int) ≤ 3 ∧ (3 : Int) ≤ abc.length ∧ (-1 : Int) < 0 ∧ (abc.length : Int) < 4 ∧
      (doneWith []).phase = .done ∧ fetch (withStream [0x02#8, 0#8, 0#8, 0#8]) = [0x02#8, 0#8, 0#8, 0#8] ∧
      (withStream []).rst = false := by decide
theorem witness_UpdateClosedForm :
    (filled 63).phase = .ready ∧ Memory.wf (filled 63).buf (filled 63).fill = true ∧
      (0 : Int) ≤ 1 ∧ (1 : Int) ≤ [0x61#8].length := by decide
theorem witness_ZeroLengthUpdateIsNoop : State.reset.phase = .ready := rfl
theorem witness_ChunkingInvariance : (filled 63).phase = .ready := rfl
theorem witness_PadShape : (55 : Fin 64).val ≤ 55 ∧ 56 ≤ (56 : Fin 64).val := by decide
theorem witness_PaddingFallsInOneOrTwoBlocks :
    Memory.wf (filled 55).buf (filled 55).fill = true ∧ (filled 55).fill.val ≤ 55 ∧
      Memory.wf (filled 56).buf (filled 56).fill = true ∧ ¬ (filled 56).fill.val ≤ 55 := by decide
theorem witness_FinalizePadsAndDelivers :
    (filled 63).phase = .ready ∧ Memory.wf (filled 63).buf (filled 63).fill = true ∧ (doneWith []).phase = .done := by decide
theorem witness_PaddingMachineIsFinalize :
    (filled 56).phase = .ready ∧ Memory.wf (filled 56).buf (filled 56).fill = true := by decide
theorem witness_MessageDigestIsFoldOfCompress : Initial State.reset := ⟨rfl, rfl, rfl, rfl, rfl⟩
theorem witness_PseudoCommandExpansions : abc.length < 2 ^ 31 := by decide

end Sys2Proof.Tests
end

section
/-!
PROOFS. What a command that answers a next state has done, said once: it completed or it raised a fault. The frames
and invariants of a step are read off this case split (10_state.md R11 to R26; 30_encoding.md R72, R77, R78).
-/
namespace Sys2Proof.Proofs

open Sys2Proof.Machine Sys2Proof.Laws

/-! ## `endOfStream` -/

@[simp] theorem endOfStream_h (s : State) : (endOfStream s).h = s.h := by unfold endOfStream; split <;> rfl
@[simp] theorem endOfStream_count (s : State) : (endOfStream s).count = s.count := by unfold endOfStream; split <;> rfl
@[simp] theorem endOfStream_buf (s : State) : (endOfStream s).buf = s.buf := by unfold endOfStream; split <;> rfl
@[simp] theorem endOfStream_fill (s : State) : (endOfStream s).fill = s.fill := by unfold endOfStream; split <;> rfl
@[simp] theorem endOfStream_phase (s : State) : (endOfStream s).phase = s.phase := by unfold endOfStream; split <;> rfl

/-! ## What the decoder accepts -/

/-- The opcode map read backwards (R74). -/
theorem decodeOp_eq_some {x : Byte} {op : Op} (h : decodeOp x = some op) :
    (x = 0x01#8 ∧ op = .block) ∨ (x = 0x02#8 ∧ op = .update) ∨ (x = 0x03#8 ∧ op = .finalize) ∨
      (x = 0x04#8 ∧ op = .reset) := by
  unfold decodeOp at h
  split_ifs at h <;> cases h <;> simp [*]

theorem decodeBlock_eq_ok {rest : List Byte} {i : Instr} (h : decodeBlock rest = .ok i) :
    ∃ (b : Block) (after : List Byte), rest = b.toList ++ after ∧ i = .block b := by
  unfold decodeBlock at h
  split at h
  · next b e =>
    cases h
    exact ⟨b, rest.drop 64, by rw [blockOf?_eq_some.mp e, List.take_append_drop], rfl⟩
  · cases h

theorem decodeUpdate_eq_ok {rest : List Byte} {i : Instr} (h : decodeUpdate rest = .ok i) :
    ∃ b0 b1 b2 b3 d, rest = b0 :: b1 :: b2 :: b3 :: d ∧ i = .update (sextLen (be32 b0 b1 b2 b3)) d := by
  unfold decodeUpdate at h
  split at h
  · next b0 b1 b2 b3 d =>
    cases h
    exact ⟨b0, b1, b2, b3, d, rfl, rfl⟩
  · cases h

/-- Every byte string that decodes to a command (R71, R74, R77). -/
theorem decode_eq_ok {bytes : List Byte} {i : Instr} (h : decode bytes = .ok i) :
    (∃ (b : Block) (after : List Byte), bytes = 0x01#8 :: (b.toList ++ after) ∧ i = .block b) ∨
    (∃ b0 b1 b2 b3 d, bytes = 0x02#8 :: b0 :: b1 :: b2 :: b3 :: d ∧
      i = .update (sextLen (be32 b0 b1 b2 b3)) d) ∨
    (∃ after, bytes = 0x03#8 :: after ∧ i = .finalize) ∨
    (∃ after, bytes = 0x04#8 :: after ∧ i = .reset) := by
  cases bytes with
  | nil => cases h
  | cons x rest =>
    simp only [decode] at h
    split at h
    · next op e =>
      rcases decodeOp_eq_some e with ⟨rfl, rfl⟩ | ⟨rfl, rfl⟩ | ⟨rfl, rfl⟩ | ⟨rfl, rfl⟩
      · obtain ⟨b, after, rfl, rfl⟩ := decodeBlock_eq_ok h
        exact .inl ⟨b, after, rfl, rfl⟩
      · obtain ⟨b0, b1, b2, b3, d, rfl, rfl⟩ := decodeUpdate_eq_ok h
        exact .inr (.inl ⟨b0, b1, b2, b3, d, rfl, rfl⟩)
      · cases h
        exact .inr (.inr (.inl ⟨rest, rfl, rfl⟩))
      · cases h
        exact .inr (.inr (.inr ⟨rest, rfl, rfl⟩))
    · cases h

/-! ## Completing and raising -/

/-- The command `i` completes in `s` and leaves `t`, under the conditions in which it does (R125, R141, R150, R165). -/
inductive Completes : Instr → State → State → Prop where
  | block (b : Block) {s : State} (ready : s.phase = .ready) : Completes (.block b) s (blockEffect b s)
  | update (len : Int) (d : List Byte) {s : State} (ready : s.phase = .ready) (lo : 0 ≤ len) (hi : len ≤ d.length) :
      Completes (.update len d) s (updateEffect len.toNat d s)
  | finalize {s : State} (ready : s.phase = .ready) : Completes .finalize s (finalizeEffect s)
  | reset {s : State} (alive : s.phase ≠ .fault) : Completes .reset s (resetEffect s)

/-- A command that answers a next state completed or raised a fault (R184, R189). -/
theorem exec_completes_or_raises {i : Instr} {s t : State} (h : exec i s = .next t) :
    Completes i s t ∨ ∃ code, code ≠ FaultCode.none ∧ t = raise code s := by
  rcases exec_next h with ⟨ready, ran⟩ | ⟨done, rfl, rfl⟩ | ⟨-, -, rfl⟩
  · cases ran with
    | block b => exact .inl (.block b ready)
    | update len d _ lo hi => exact .inl (.update len d ready lo hi)
    | badLength => exact .inr ⟨.length, by simp, rfl⟩
    | finalize => exact .inl (.finalize ready)
    | reset => exact .inl (.reset (by simp [ready]))
  · exact .inl (.reset (by simp [done]))
  · exact .inr ⟨.usage, by simp, rfl⟩

theorem shortFault_ne_none (p : Phase) : shortFault p ≠ .none := by cases p <;> simp [shortFault]

/-- Everything a step without `rst` can do (R78): a command completes, a fault is raised, or the stream has ended. -/
theorem step_cases {s t : State} (h : step s = .next t) (hr : s.rst = false) :
    (∃ i, decode (fetch s) = .ok i ∧ Completes i s t) ∨ (∃ code, code ≠ FaultCode.none ∧ t = raise code s) ∨
      t = endOfStream s := by
  rcases step_next h with ⟨rst, -⟩ | ⟨-, -, ⟨i, hd, he⟩ | ⟨-, ht⟩ | ⟨x, -, ht⟩ | ⟨op, -, ht⟩⟩
  · simp [hr] at rst
  · exact (exec_completes_or_raises he).imp (⟨i, hd, ·⟩) .inl
  · exact .inr (.inr ht)
  · exact .inr (.inl ⟨.illegal, by simp, ht⟩)
  · exact .inr (.inl ⟨_, shortFault_ne_none _, ht⟩)

/-! ## The frame of a command that completes -/

namespace Completes

variable {i : Instr} {s t : State}

theorem alive (h : Completes i s t) : s.phase ≠ .fault := by
  cases h with
  | reset alive => exact alive
  | _ => simp [*]

theorem phase_ne_fault (h : Completes i s t) : t.phase ≠ .fault := by
  cases h with
  | block b ready => simp [blockEffect, ready]
  | update len d ready => simp [updateEffect, ready]
  | finalize => simp [finalizeEffect]
  | reset => simp [resetEffect]

theorem faultCode_eq (h : Completes i s t) : t.faultCode = s.faultCode := by
  cases h <;> simp [blockEffect, updateEffect, finalizeEffect, resetEffect]

theorem stream_eq (h : Completes i s t) : t.stream = s.stream := by
  cases h <;> simp [blockEffect, updateEffect, finalizeEffect, resetEffect]

theorem pos_eq (h : Completes i s t) : t.pos = s.pos + encodedLength i := by
  cases h <;> simp [blockEffect, updateEffect, finalizeEffect, resetEffect, encodedLength]

/-- The bytes of a command that completes are all there: UPDATE has tested its length against them (R141). -/
theorem encodedLength_le (h : Completes i s t) {bytes : List Byte} (hd : decode bytes = .ok i) :
    encodedLength i ≤ bytes.length := by
  rcases decode_eq_ok hd with ⟨b, after, rfl, rfl⟩ | ⟨b0, b1, b2, b3, d, rfl, rfl⟩ | ⟨after, rfl, rfl⟩ |
    ⟨after, rfl, rfl⟩
  · simp [encodedLength]
  · cases h with
    | update _ _ _ lo hi => simp only [encodedLength, List.length_cons]; omega
  · simp [encodedLength]
  · simp [encodedLength]

end Completes

end Sys2Proof.Proofs
end

section
/-!
PROOFS. The invariant of the command boundary (10_state.md R14, R15, R17, R19, R26): each event a step can be keeps it.
-/
namespace Sys2Proof.Proofs

open Sys2Proof.Machine Sys2Proof.Laws

/-! ## The length of the padding -/

@[simp] theorem bytes64_length (v : DWord) : (bytes64 v).length = 8 := rfl

/-- The padding fills the last block up (R151). -/
theorem fill_add_pad_length_mod (fill : Fin 64) (len : DWord) : (fill.val + (pad fill len).length) % 64 = 0 := by
  have := fill.isLt
  simp only [pad, padZeros, List.length_cons, List.length_append, List.length_replicate, bytes64_length]
  omega

/-! ## The invariant after each event -/

theorem inv_hardwareReset (s : State) : Inv (hardwareReset s) where
  buf := fun _ => hardwareReset_wf s
  count := fun _ => rfl
  done := fun h => by simp at h
  code := by simp [CodeInv]
  pos := by simp [PosInv]

theorem inv_raise {code : FaultCode} (hcode : code ≠ .none) {s : State} (hs : Inv s) : Inv (raise code s) where
  buf := fun h => absurd rfl h
  count := fun h => by simp at h
  done := fun h => by simp at h
  code := by simp [CodeInv, hcode]
  pos := hs.pos

theorem inv_endOfStream {s : State} (hs : Inv s) : Inv (endOfStream s) := by
  unfold endOfStream
  split
  · exact hs
  · exact ⟨hs.buf, hs.count, hs.done, hs.code, Nat.zero_le _⟩

namespace Completes

variable {i : Instr} {s t : State}

theorem keeps_wf (h : Completes i s t) (wf : Memory.wf s.buf s.fill = true) : Memory.wf t.buf t.fill = true := by
  cases h with
  | block => exact wf
  | update => exact absorbAll_wf _ wf
  | finalize => exact absorbAll_wf _ wf
  | reset => rfl

/-- UPDATE moves `count` by `8 * len` and `fill` by `len` modulo 64; only FINALIZE leaves READY (R17). -/
theorem keeps_countInv (h : Completes i s t) (wf : Memory.wf s.buf s.fill = true) (hcount : CountInv s) :
    CountInv t := by
  cases h with
  | block => exact hcount
  | update len d ready lo hi =>
    intro _
    have htake : (d.take len.toNat).length = len.toNat := by rw [List.length_take]; omega
    have hmod := hcount ready
    simp only [updateEffect, advance_count, addCount_count, absorbAll_count, advance_fill, addCount_fill,
      absorbAll_fill _ wf, htake, add64, BitVec.toNat_ofNat]
    omega
  | finalize => intro h; simp [finalizeEffect] at h
  | reset => exact fun _ => rfl

/-- Only FINALIZE enters DONE, and its padding ends on a block boundary (R151, R154). -/
theorem establishes_doneInv (h : Completes i s t) (wf : Memory.wf s.buf s.fill = true) : DoneInv t := by
  intro done
  have wft : t.buf.length = t.fill.val := memory_wf_iff.mp (h.keeps_wf wf)
  have hfill : t.fill = 0 := by
    cases h with
    | block b ready => simp [blockEffect, ready] at done
    | update len d ready => simp [updateEffect, ready] at done
    | finalize =>
      apply Fin.ext
      simpa [finalizeEffect, absorbAll_fill _ wf] using fill_add_pad_length_mod s.fill s.count
    | reset => rfl
  exact ⟨hfill, List.length_eq_zero_iff.mp (by rw [wft, hfill]; rfl)⟩

theorem keeps_codeInv (h : Completes i s t) (hcode : CodeInv s) : CodeInv t := by
  have hnone : s.faultCode = .none := by simpa [CodeInv, h.alive] using hcode
  simp [CodeInv, h.faultCode_eq, hnone, h.phase_ne_fault]

theorem establishes_posInv (h : Completes i s t) (hd : decode (fetch s) = .ok i) : PosInv t := by
  have hlen := h.encodedLength_le hd
  have hpos : 0 < encodedLength i := by cases i <;> simp [encodedLength]
  rw [fetch, List.length_drop] at hlen
  rw [PosInv, h.pos_eq, h.stream_eq]
  omega

theorem keeps_inv (h : Completes i s t) (hd : decode (fetch s) = .ok i) (hs : Inv s) : Inv t :=
  have wf := hs.buf h.alive
  ⟨fun _ => h.keeps_wf wf, h.keeps_countInv wf hs.count, h.establishes_doneInv wf, h.keeps_codeInv hs.code,
    h.establishes_posInv hd⟩

end Completes

/-- Settles O6, by the cases of a step: hardware reset, a command that completes, a fault, the end of the stream. -/
theorem stepKeepsInvariant : Obligations.StepKeepsInvariant := by
  intro s t hs hstep
  cases hr : s.rst with
  | true =>
    obtain rfl : t = hardwareReset s := by simpa [step, hr] using hstep.symm
    exact inv_hardwareReset s
  | false =>
    rcases step_cases hstep hr with ⟨i, hd, hc⟩ | ⟨code, hcode, rfl⟩ | rfl
    · exact hc.keeps_inv hd hs
    · exact inv_raise hcode hs
    · exact inv_endOfStream hs

/-- Settles O7: the five clauses at the reset values. -/
theorem resetMeetsInvariant : Obligations.ResetMeetsInvariant where
  buf := fun _ => reset_memory_wf
  count := fun _ => rfl
  done := fun _ => ⟨rfl, rfl⟩
  code := by simp [CodeInv, State.reset]
  pos := Nat.le_refl 0

end Sys2Proof.Proofs
end

section
/-!
PROOFS. What a step may write, the reset values, the advance of `pos` and the output ports (10_state.md R11 to R21, R26,
R30).
-/
namespace Sys2Proof.Proofs

open Sys2Proof.Machine Sys2Proof.Laws Sys2Proof.Claims

/-! ## Who writes which register -/

namespace Completes

variable {i : Instr} {s t : State}

/-- The counter is written by UPDATE and RESET only (R16). -/
theorem writes_count (h : Completes i s t) (hne : t.count ≠ s.count) :
    (∃ len d, i = .update len d) ∨ i = .reset := by
  cases h with
  | block => exact absurd rfl hne
  | update len d => exact .inl ⟨len, d, rfl⟩
  | finalize => simp [finalizeEffect] at hne
  | reset => exact .inr rfl

/-- BLOCK goes past the buffer (R125). -/
theorem writes_buffer (h : Completes i s t) (hne : t.buf ≠ s.buf ∨ t.fill ≠ s.fill) : ∀ b, i ≠ .block b := by
  rintro b rfl
  cases h
  simp [blockEffect] at hne

end Completes

/-- Settles O22: outside FAULT a step is a command that completes or the end of the stream, which writes nothing. -/
theorem whoWritesTheRegisters : Obligations.WhoWritesTheRegisters := by
  intro s t hstep ht hr
  rcases step_cases hstep hr with ⟨i, hd, hc⟩ | ⟨code, -, rfl⟩ | rfl
  · rw [hd]
    refine ⟨fun hne => ?_, fun _ => ⟨i, rfl⟩, fun hne => ⟨i, rfl, hc.writes_buffer hne⟩⟩
    simpa using hc.writes_count hne
  · exact absurd rfl ht
  · simp

/-! ## The digest port -/

theorem digestPort_of_done {s : State} (h : s.phase = .done) : digestPort s = some (digestWord s.h) := by
  simp [digestPort, digestValid, h]

/-- Byte `k` of word `j` of the serialized digest (R156). -/
theorem serialize_getElem (h : Chain) (j : Fin 5) (k : Fin 4) :
    (serialize h)[4 * j.val + k.val] = (chainWord h j).extractLsb' (24 - 8 * k.val) 8 := by
  fin_cases j <;> fin_cases k <;> rfl

/-- Byte `k` of word `j` of the port value: each word is 32 bits wide and `h0` is the most significant (R21). -/
theorem digestWord_extractLsb' (h : Chain) (j : Fin 5) (k : Fin 4) :
    (digestWord h).extractLsb' (152 - 8 * (4 * j.val + k.val)) 8 = (chainWord h j).extractLsb' (24 - 8 * k.val) 8 := by
  change BitVec.extractLsb' (n := 32 + 32 + 32 + 32 + 32) _ 8 (h.h0 ++ h.h1 ++ h.h2 ++ h.h3 ++ h.h4) = _
  fin_cases j <;> fin_cases k <;>
    simp (disch := decide) only [BitVec.extractLsb'_append_eq_of_add_le, BitVec.extractLsb'_append_eq_of_le] <;> rfl

theorem serialize_eq_digestWord_byte (h : Chain) (i : Fin 20) :
    (serialize h)[i.val] = (digestWord h).extractLsb' (152 - 8 * i.val) 8 := by
  have key := (serialize_getElem h ⟨i / 4, by omega⟩ ⟨i % 4, by omega⟩).trans
    (digestWord_extractLsb' h ⟨i / 4, by omega⟩ ⟨i % 4, by omega⟩).symm
  simpa only [Nat.div_add_mod] using key

/-- A step that stays in DONE leaves the chaining registers: no command completes from DONE into DONE (R21). -/
theorem step_done_done_h {s t : State} (hs : s.phase = .done) (hstep : step s = .next t) (ht : t.phase = .done) :
    t.h = s.h := by
  cases hr : s.rst with
  | true =>
    obtain rfl : t = hardwareReset s := by simpa [step, hr] using hstep.symm
    simp at ht
  | false =>
    rcases step_cases hstep hr with ⟨i, -, hc⟩ | ⟨code, -, rfl⟩ | rfl
    · cases hc with
      | block b ready => simp [hs] at ready
      | update len d ready => simp [hs] at ready
      | finalize ready => simp [hs] at ready
      | reset => simp [resetEffect] at ht
    · simp at ht
    · exact endOfStream_h s

/-- Settles O32: the port value by definition, its bytes word by word, and its stability by the cases of a step. -/
theorem digestPortStableInDone : Obligations.DigestPortStableInDone := by
  refine ⟨fun _ => digestPort_of_done, serialize_eq_digestWord_byte, fun s t hs hstep ht => ?_⟩
  rw [digestPort_of_done ht, digestPort_of_done hs, step_done_done_h hs hstep ht]

/-! ## The order of digests -/

/-- On sequences of one length `digestLt` is the lexicographic order of unsigned bytes (R22). -/
theorem digestLt_go_iff_lt {as bs : List Byte} (h : as.length = bs.length) :
    digestLt.go as bs = true ↔ as < bs := by
  induction as generalizing bs with
  | nil => cases bs <;> simp_all [digestLt.go]
  | cons a as ih =>
    cases bs with
    | nil => simp at h
    | cons b bs =>
      rw [digestLt.go, List.cons_lt_cons_iff]
      split
      · next hab => simp [hab, ih (Nat.succ.inj h)]
      · next hab => simp [hab, BitVec.lt_def]

theorem digestLt_iff_lt (x y : Digest) : digestLt x y = true ↔ x < y := by
  rw [digestLt, digestLt_go_iff_lt (by simp), Vector.lt_toList]

/-- Settles O33: equality by extensionality, order by the library's account of the lexicographic order. -/
theorem digestOrderByteWise : Obligations.DigestOrderByteWise := by
  intro x y
  constructor
  · exact ⟨fun h i => h ▸ rfl, fun h => Vector.ext fun i hi => h ⟨i, hi⟩⟩
  · rw [digestLt_iff_lt, Vector.lt_iff_exists]
    constructor
    · rintro ⟨i, hi, heq, hlt⟩
      exact ⟨⟨i, hi⟩, hlt, fun j hj => heq j hj⟩
    · rintro ⟨i, hlt, heq⟩
      exact ⟨i, i.isLt, fun j hj => heq ⟨j, by omega⟩ hj, hlt⟩

/-! ## Reset values, the advance of `pos`, the status outputs -/

theorem initial_initValues (s : State) : Initial (initValues s) := ⟨rfl, rfl, rfl, rfl, rfl⟩

/-- RESET completes in every phase but FAULT (R165). -/
theorem exec_reset_of_alive {s : State} (h : s.phase ≠ .fault) : exec .reset s = .next (resetEffect s) := by
  rcases whenAlive_cases (fun t => .next (resetEffect t)) s with ⟨-, e⟩ | ⟨p, -⟩
  · exact e
  · exact absurd p h

/-- Settles O1: the reset values by evaluation, RESET by its effect in every phase but FAULT. -/
theorem resetValuesAsTabulated : Obligations.ResetValuesAsTabulated :=
  ⟨⟨⟨rfl, rfl, rfl, rfl, rfl⟩, rfl, rfl, rfl, rfl⟩,
    fun s h => ⟨resetEffect s, exec_reset_of_alive h, initial_initValues s, rfl⟩⟩

/-- Settles O17: a command that completes is not in FAULT and has advanced `pos`, a fault keeps it. -/
theorem advanceOfPos : Obligations.AdvanceOfPos := by
  intro i s t h
  rcases exec_completes_or_raises h with hc | ⟨code, -, rfl⟩
  · exact ⟨fun _ => hc.pos_eq, fun hf => absurd hf hc.phase_ne_fault⟩
  · exact ⟨fun hf => absurd rfl hf, fun _ => rfl⟩

/-- Settles O30: both outputs decide the phase; the port codes are the tables' values. -/
theorem statusOutputsFollowPhase : Obligations.StatusOutputsFollowPhase := by
  refine ⟨fun s => ⟨?_, ?_, rfl, rfl, rfl, rfl⟩, ⟨rfl, rfl⟩, ⟨rfl, rfl, rfl⟩, rfl, rfl, rfl, rfl⟩
  · exact decide_eq_true_iff
  · exact decide_eq_true_iff

end Sys2Proof.Proofs
end

section
/-!
PROOFS. The schedule file is written before it is read (10_state.md R13, 44_reset_and_pseudo.md R166).
-/
namespace Sys2Proof.Proofs

open Sys2Proof.Machine

/-- The two schedule files agree on the words below index `n`. -/
def AgreeBelow (n : Nat) (w w' : Sched) : Prop := ∀ (j : Nat) (hj : j < 80), j < n → w[j] = w'[j]

/-- Writing the same value into the first word in doubt leaves one word fewer in doubt. -/
theorem AgreeBelow.set {n : Nat} {w w' : Sched} (h : AgreeBelow n w w') (hn : n < 80) (v : Word) :
    AgreeBelow (n + 1) (w.set n v) (w'.set n v) := by
  intro j hj hjn
  rw [Vector.getElem_set, Vector.getElem_set]
  split
  · rfl
  · exact h j hj (by omega)

theorem AgreeBelow.eq {w w' : Sched} (h : AgreeBelow 80 w w') : w = w' := Vector.ext fun j hj => h j hj hj

/-- A pass that settles the words `a, a + 1, …` one by one, each from the words below it, settles them all. -/
theorem AgreeBelow.foldl_finRange {a n : Nat} {f : Sched → Fin n → Sched}
    (hf : ∀ (i : Fin n) (w w' : Sched), AgreeBelow (a + i) w w' → AgreeBelow (a + i + 1) (f w i) (f w' i))
    {w w' : Sched} (h : AgreeBelow a w w') :
    AgreeBelow (a + n) ((List.finRange n).foldl f w) ((List.finRange n).foldl f w') := by
  induction n with
  | zero => exact h
  | succ n ih =>
    simp only [List.finRange_succ_last, List.foldl_append, List.foldl_map, List.foldl_cons, List.foldl_nil]
    exact hf (Fin.last n) _ _ (ih fun i => hf i.castSucc)

/-- The converter writes `W[0..15]` from the block alone (R108). -/
theorem agreeBelow_convert (blk : Block) (w w' : Sched) : AgreeBelow 16 (convert blk w) (convert blk w') := by
  refine AgreeBelow.foldl_finRange (a := 0) (n := 16) (fun i w w' h => ?_) fun j _ hj => absurd hj (Nat.not_lt_zero j)
  rw [Nat.zero_add] at h ⊢
  exact h.set (by omega) _

/-- The expansion writes `W[16..79]`, each from words of lower index (R120). -/
theorem agreeBelow_expand {w w' : Sched} (h : AgreeBelow 16 w w') : AgreeBelow 80 (expand w) (expand w') := by
  refine AgreeBelow.foldl_finRange (n := 64) (fun i w w' h => ?_) h
  rw [Nat.add_comm 16] at h ⊢
  have read (k : Nat) (hk : k < 16) : w[i.val + k] = w'[i.val + k] := h _ (by omega) (by omega)
  unfold expandWord
  rw [read 13 (by decide), read 8 (by decide), read 2 (by decide), h i.val (by omega) (by omega)]
  exact h.set (by omega) _

/-- Settles O42: after the converter the files agree below 16, after the expansion everywhere. -/
theorem scheduleForgetsOldWords : Obligations.ScheduleForgetsOldWords :=
  fun w0 w1 blk => (agreeBelow_expand (agreeBelow_convert blk w0 w1)).eq

end Sys2Proof.Proofs
end

section
/-!
PROOFS. Byte order and the buffer's accessors: `MemRead`, the words of a block, `MemWrite` (20_memory.md R40 to R44).
-/
namespace Sys2Proof.Proofs

open Sys2Proof.Machine Sys2Proof.Laws

/-! ## Bytes of a word -/

/-- The four bytes of `BE32` fit a word (R107). -/
theorem be32_toNat (b0 b1 b2 b3 : Byte) :
    (be32 b0 b1 b2 b3).toNat = 2 ^ 24 * b0.toNat + 2 ^ 16 * b1.toNat + 2 ^ 8 * b2.toNat + b3.toNat := by
  rw [be32, BitVec.toNat_ofNat]
  exact Nat.mod_eq_of_lt (by omega)

/-- `BYTES32` undoes `BE32` (R107, R109). -/
theorem bytes32_be32 (b0 b1 b2 b3 : Byte) : bytes32 (be32 b0 b1 b2 b3) = [b0, b1, b2, b3] := by
  simp only [bytes32, List.cons.injEq, and_true]
  refine ⟨?_, ?_, ?_, ?_⟩ <;>
  · apply BitVec.eq_of_toNat_eq
    rw [BitVec.extractLsb'_toNat, be32_toNat, Nat.shiftRight_eq_div_pow]
    omega

/-- Byte `k` of a word, most significant first (R109). -/
theorem bytes32_getElem (w : Word) (k : Fin 4) : (bytes32 w)[k.val] = w.extractLsb' (24 - 8 * k.val) 8 := by
  fin_cases k <;> rfl

/-- `BYTES64` by division (R109): byte `k` has weight `2 ^ (8 * (7 - k))`. -/
theorem bytes64_eq_map_range (v : DWord) :
    bytes64 v = (List.range 8).map fun k => BitVec.ofNat 8 (v.toNat / 2 ^ (8 * (7 - k))) := by
  simp only [bytes64, BitVec.extractLsb', Nat.shiftRight_eq_div_pow]
  rfl

/-! ## `MemRead` and the words of a block -/

/-- Horner's rule in base 256, most significant digit first. -/
theorem foldl_horner_eq_sum {n : Nat} (digit : Fin n → Nat) :
    (List.finRange n).foldl (fun acc k => 256 * acc + digit k) 0 =
      ((List.finRange n).map fun k => 2 ^ (8 * (n - 1 - k.val)) * digit k).sum := by
  induction n with
  | zero => rfl
  | succ n ih =>
    have scale (k : Fin n) : 256 * (2 ^ (8 * (n - 1 - k.val)) * digit k.castSucc) =
        2 ^ (8 * (n - k.val)) * digit k.castSucc := by
      rw [← Nat.mul_assoc, show 8 * (n - k.val) = 8 + 8 * (n - 1 - k.val) by omega, Nat.pow_add]
    simp [List.finRange_succ_last, List.foldl_map, ih fun k => digit k.castSucc, ← List.sum_map_mul_left, scale,
      Function.comp_def]

/-- `MemRead` of four bytes is `BE32` of them (R43, R107). -/
theorem memRead_four (blk : Block) (addr : Nat) (h : addr + 4 ≤ 64) :
    memRead blk addr 4 h = (be32 blk[addr] blk[addr + 1] blk[addr + 2] blk[addr + 3]).toNat := by
  rw [be32_toNat, memRead, foldl_horner_eq_sum]
  simp [List.finRange_succ, Nat.add_assoc]

/-- Settles O39: Horner's rule for the sum; both readings of a word are `BE32` of its four bytes. -/
theorem memReadIsBigEndianSum : Obligations.MemReadIsBigEndianSum :=
  ⟨fun _ _ _ _ => foldl_horner_eq_sum _, fun blk i => (memRead_four blk (4 * i.val) _).symm⟩

/-- Settles O40: the field is byte `k` of `BYTES32`, which undoes the `BE32` that built the word. -/
theorem blockBytesInWords : Obligations.BlockBytesInWords := by
  intro blk i k
  simp only [← bytes32_getElem, blockWord, bytes32_be32]
  fin_cases k <;> rfl

/-! ## `MemWrite` -/

/-- The padding's zeros end at index 56 of a block (R151). -/
theorem fill_add_padZeros_mod (fill : Fin 64) : (fill.val + (padZeros fill + 1)) % 64 = 56 := by
  have := fill.isLt
  unfold padZeros
  omega

/-- Settles O48: `MemWrite` is `absorbAll` of the value's bytes, and the padding splits before the length field. -/
theorem memWriteIsSuccessiveAbsorb : Obligations.MemWriteIsSuccessiveAbsorb := by
  intro v x s wf
  refine ⟨rfl, ?_, _, ?_, rfl, ?_⟩
  · rw [memWrite8, bytes64_eq_map_range, absorbAll, List.foldl_map]
  · rw [memWrite1, ← absorbAll_cons, absorbAll_fill _ wf]
    simpa using fill_add_padZeros_mod s.fill
  · rw [pad, absorbAll_cons, absorbAll_append]
    rfl

end Sys2Proof.Proofs
end

section
/-!
PROOFS. The codec: what the decoder answers on every byte string, and that it and the encoder undo each other
(30_encoding.md R71 to R77).
-/
namespace Sys2Proof.Proofs

open Sys2Proof.Machine Sys2Proof.Laws Sys2Proof.Claims

/-! ## The length field -/

@[simp] theorem bytes32_length (w : Word) : (bytes32 w).length = 4 := rfl

/-- `BE32` undoes `BYTES32` (R107, R109). -/
theorem be32_bytes32 (w : Word) :
    be32 (w.extractLsb' 24 8) (w.extractLsb' 16 8) (w.extractLsb' 8 8) (w.extractLsb' 0 8) = w := by
  apply BitVec.eq_of_toNat_eq
  simp only [be32_toNat, BitVec.extractLsb'_toNat, Nat.shiftRight_eq_div_pow]
  omega

/-- `sext_32` is the library's two's complement reading (R73). -/
theorem sextLen_eq_toInt (w : Word) : sextLen w = w.toInt := by
  rw [sextLen, BitVec.toInt_eq_toNat_cond]
  split_ifs <;> omega

theorem lenOk_iff {len : Int} : lenOk len = true ↔ -2 ^ 31 ≤ len ∧ len ≤ 2 ^ 31 - 1 := by
  rw [lenOk, Bool.and_eq_true, decide_eq_true_iff, decide_eq_true_iff]
  rfl

theorem lenOk_sextLen (w : Word) : lenOk (sextLen w) = true := by
  have lo := w.le_toInt
  have hi := w.toInt_lt
  rw [lenOk_iff, sextLen_eq_toInt]
  omega

theorem ofInt_sextLen (w : Word) : BitVec.ofInt 32 (sextLen w) = w := by
  rw [sextLen_eq_toInt, BitVec.ofInt_toInt]

theorem sextLen_ofInt {len : Int} (h : lenOk len = true) : sextLen (BitVec.ofInt 32 len) = len := by
  obtain ⟨lo, hi⟩ := lenOk_iff.mp h
  rw [sextLen_eq_toInt]
  exact BitVec.toInt_ofInt_eq_self (by decide) lo (by omega)

/-! ## The opcode byte -/

/-- The opcode map read backwards and forwards (R74). -/
theorem decodeOp_eq_some_iff {x : Byte} {op : Op} :
    decodeOp x = some op ↔ (x = 0x01#8 ∧ op = .block) ∨ (x = 0x02#8 ∧ op = .update) ∨
      (x = 0x03#8 ∧ op = .finalize) ∨ (x = 0x04#8 ∧ op = .reset) :=
  ⟨decodeOp_eq_some, by rintro (⟨rfl, rfl⟩ | ⟨rfl, rfl⟩ | ⟨rfl, rfl⟩ | ⟨rfl, rfl⟩) <;> rfl⟩

theorem decodeOp_eq_none_iff {x : Byte} :
    decodeOp x = none ↔ x ≠ 0x01#8 ∧ x ≠ 0x02#8 ∧ x ≠ 0x03#8 ∧ x ≠ 0x04#8 := by
  constructor
  · intro h
    refine ⟨?_, ?_, ?_, ?_⟩ <;> (rintro rfl; cases h)
  · rintro ⟨h1, h2, h3, h4⟩
    simp [decodeOp, h1, h2, h3, h4]

/-- Settles O8: the pairs of byte and opcode, and the bytes left over. -/
theorem opcodeMapIsComplete : Obligations.OpcodeMapIsComplete := by
  intro x
  refine ⟨?_, ?_, ?_, ?_, decodeOp_eq_none_iff⟩ <;> simp [decodeOp_eq_some_iff]

/-! ## The decoder, case by case -/

theorem exists_block_toList {l : List Byte} (h : l.length = 64) : ∃ b : Block, b.toList = l :=
  ⟨⟨l.toArray, by simpa using h⟩, rfl⟩

theorem decode_block (b : Block) (after : List Byte) : decode (0x01#8 :: (b.toList ++ after)) = .ok (.block b) := by
  change decodeBlock _ = _
  rw [decodeBlock, List.take_left' (by simp), blockOf?_toList]

theorem decode_block_of_short {rest : List Byte} (h : rest.length < 64) : decode (0x01#8 :: rest) = .short .block := by
  change decodeBlock _ = _
  rw [decodeBlock, blockOf?_eq_none.mpr (by rw [List.length_take]; omega)]

theorem decode_update (b0 b1 b2 b3 : Byte) (d : List Byte) :
    decode (0x02#8 :: b0 :: b1 :: b2 :: b3 :: d) = .ok (.update (sextLen (be32 b0 b1 b2 b3)) d) := rfl

theorem decode_update_bytes32 (w : Word) (d : List Byte) :
    decode (0x02#8 :: (bytes32 w ++ d)) = .ok (.update (sextLen w) d) := by
  rw [← be32_bytes32 w, bytes32_be32]
  rfl

theorem decode_update_of_short {rest : List Byte} (h : rest.length < 4) : decode (0x02#8 :: rest) = .short .update := by
  match rest, h with
  | [], _ | [_], _ | [_, _], _ | [_, _, _], _ => rfl

theorem decode_finalize (rest : List Byte) : decode (0x03#8 :: rest) = .ok .finalize := rfl

theorem decode_reset (rest : List Byte) : decode (0x04#8 :: rest) = .ok .reset := rfl

theorem decode_illegal {x : Byte} (rest : List Byte) (h : decodeOp x = none) : decode (x :: rest) = .illegal x := by
  rw [decode, h]

/-- Only the end of the stream decodes to no answer at all (R77, R78). -/
theorem decode_eq_empty_iff {bytes : List Byte} : decode bytes = .empty ↔ bytes = [] := by
  refine ⟨fun h => ?_, fun h => h ▸ rfl⟩
  cases bytes with
  | nil => rfl
  | cons x rest =>
    rw [decode] at h
    split at h
    · next op _ =>
      cases op with
      | block => rw [decodeOperands, decodeBlock] at h; split at h <;> cases h
      | update => rw [decodeOperands] at h; unfold decodeUpdate at h; split at h <;> cases h
      | finalize => cases h
      | reset => cases h
    · cases h

/-- Settles O9: the decoder evaluated on the five words. -/
theorem writtenOutWordsDecode : Obligations.WrittenOutWordsDecode :=
  ⟨by decide, by decide, decode_finalize _, decode_reset _, by decide⟩

/-- Settles O10: the cases above, and the encoded lengths by their definition. -/
theorem decodeOperandsAsTabulated : Obligations.DecodeOperandsAsTabulated := by
  refine ⟨rfl, fun rest => ⟨decode_block_of_short, fun h => ?_, decode_update_of_short, ?_, ⟨rfl, rfl⟩, ⟨rfl, rfl⟩,
    fun x h1 h2 h3 h4 => decode_illegal rest (decodeOp_eq_none_iff.mpr ⟨h1, h2, h3, h4⟩)⟩⟩
  · obtain ⟨b, hb⟩ := exists_block_toList (l := rest.take 64) (by simpa using h)
    refine ⟨b, hb, ?_, rfl⟩
    rw [← List.take_append_drop 64 rest, ← hb]
    exact decode_block b _
  · rintro b0 b1 b2 b3 d rfl
    refine ⟨decode_update b0 b1 b2 b3 d, fun h => ?_⟩
    rw [encodedLength]
    omega

/-- Settles O11: `BE32` has the raw value, and the two branches of `sext_32`. -/
theorem lengthFieldIsSignedBigEndian : Obligations.LengthFieldIsSignedBigEndian := by
  intro b0 b1 b2 b3 d
  have raw : (be32 b0 b1 b2 b3).toNat = rawLen b0 b1 b2 b3 := be32_toNat b0 b1 b2 b3
  refine ⟨sextLen (be32 b0 b1 b2 b3), decode_update b0 b1 b2 b3 d, fun h => ?_, fun h => ?_,
    lenOk_iff.mp (lenOk_sextLen _)⟩
  · rw [sextLen, raw, if_pos h]
  · rw [sextLen, raw, if_neg (by omega)]

/-! ## Decode and encode agree -/

@[simp] theorem withRest_nil (i : Instr) : i.withRest [] = i := by cases i <;> simp [Instr.withRest]

theorem decode_encode_append {i : Instr} (wf : i.wf = true) (rest : List Byte) :
    decode (encode i ++ rest) = .ok (i.withRest rest) := by
  cases i with
  | block b => exact decode_block b rest
  | update len d =>
    change decode (0x02#8 :: (bytes32 (BitVec.ofInt 32 len) ++ d ++ rest)) = .ok (.update len (d ++ rest))
    rw [List.append_assoc, decode_update_bytes32, sextLen_ofInt wf]
  | finalize => rfl
  | reset => rfl

/-- Settles O12: command by command, and the second half with nothing behind. -/
theorem decodeOfEncodeIsTheCommand : Obligations.DecodeOfEncodeIsTheCommand := by
  intro i rest wf
  refine ⟨decode_encode_append wf rest, ?_⟩
  simpa using decode_encode_append wf []

/-- Settles O13: by the forms of a byte string that decodes; the length field is restored as `sext_32` loses nothing. -/
theorem decodedCommandIsItsEncoding : Obligations.DecodedCommandIsItsEncoding := by
  intro bytes i h
  rcases decode_eq_ok h with ⟨b, after, rfl, rfl⟩ | ⟨b0, b1, b2, b3, d, rfl, rfl⟩ | ⟨after, rfl, rfl⟩ |
    ⟨after, rfl, rfl⟩
  · exact ⟨rfl, after, rfl, fun _ _ e => nomatch e⟩
  · refine ⟨lenOk_sextLen _, [], ?_, fun _ _ _ => rfl⟩
    rw [encode, operandBytes, ofInt_sextLen, bytes32_be32, List.append_nil]
    rfl
  · exact ⟨rfl, after, rfl, fun _ _ e => nomatch e⟩
  · exact ⟨rfl, after, rfl, fun _ _ e => nomatch e⟩

/-! ## Encoded lengths -/

/-- `encodedLength` counts the bytes of the encoding when an UPDATE carries its own bytes only (R72). -/
theorem encode_length {i : Instr} (own : ∀ len d, i = .update len d → len = d.length) :
    (encode i).length = encodedLength i := by
  cases i with
  | block b => simp [encode, operandBytes, encodedLength]
  | update len d =>
    simp only [encode, operandBytes, encodedLength, own len d rfl, List.length_cons, List.length_append, bytes32_length,
      Int.toNat_natCast]
    omega
  | finalize => rfl
  | reset => rfl

theorem encodedLength_updateBytes (d : List Byte) : encodedLength (.updateBytes d) = 5 + d.length := rfl

/-- Settles O14: the encoding is as long as `encodedLength` says, so the fetch behind it starts at the next byte. -/
theorem encodedLengthOfCommands : Obligations.EncodedLengthOfCommands := by
  refine ⟨fun b => ⟨?_, rfl⟩, fun d => ⟨?_, encodedLength_updateBytes d⟩, ⟨rfl, rfl⟩, ⟨rfl, rfl⟩, ?_⟩
  · exact encode_length fun _ _ e => nomatch e
  · rw [← encodedLength_updateBytes]
    exact encode_length fun _ _ e => by cases e; rfl
  · intro i before after s own hstream hpos
    rw [fetch, hstream, hpos]
    exact List.drop_left' (by rw [List.length_append, encode_length own])

end Sys2Proof.Proofs
end

section
/-!
PROOFS. The step by what the decoder answers, and the run loop (30_encoding.md R78, 70_reset_and_hazards.md R221).
-/
namespace Sys2Proof.Proofs

open Sys2Proof.Machine Sys2Proof.Laws

/-! ## The step, one equation per answer of the decoder -/

section
variable {s : State} (hr : s.rst = false) (alive : s.phase ≠ .fault)
include hr alive

theorem step_of_ok {i : Instr} (hd : decode (fetch s) = .ok i) : step s = exec i s := by
  simp [step, hr, alive, hd]

theorem step_of_empty (hd : decode (fetch s) = .empty) : step s = .next (endOfStream s) := by
  simp [step, hr, alive, hd]

theorem step_of_illegal {x : Byte} (hd : decode (fetch s) = .illegal x) : step s = .next (raise .illegal s) := by
  simp [step, hr, alive, hd, decodeFault]

theorem step_of_short {op : Op} (hd : decode (fetch s) = .short op) :
    step s = .next (raise (shortFault s.phase) s) := by
  simp [step, hr, alive, hd, decodeFault]

end

/-- Settles O15: the equation of the step for a command. -/
theorem stepRunsDecodedCommand : Obligations.StepRunsDecodedCommand :=
  fun _ _ hr alive hd => step_of_ok hr alive hd

/-- Settles O18: no byte is left, so the step is `endOfStream`, by the streams submitted behind. -/
theorem endOfStreamHoldsState : Obligations.EndOfStreamHoldsState := by
  intro s hr alive hend
  have hd : decode (fetch s) = .empty := decode_eq_empty_iff.mpr (List.drop_eq_nil_of_le hend)
  rw [step_of_empty hr alive hd, endOfStream]
  constructor
  · intro hp
    rw [hp]
  · intro q qs hp
    rw [hp]

/-! ## Every step outside FAULT answers -/

theorem whenReady_answers {act : State → Answer} (hact : ∀ s, ∃ t, act s = .next t) {s : State}
    (alive : s.phase ≠ .fault) : ∃ t, whenReady act s = .next t := by
  rcases whenReady_cases act s with ⟨-, e⟩ | ⟨-, e⟩ | ⟨p, -⟩
  · rw [e]
    exact hact s
  · exact ⟨_, e⟩
  · exact absurd p alive

/-- Outside FAULT no command refuses or stops (R189, R196). -/
theorem exec_answers (i : Instr) {s : State} (alive : s.phase ≠ .fault) : ∃ t, exec i s = .next t := by
  cases i with
  | block b => exact whenReady_answers (fun _ => ⟨_, rfl⟩) alive
  | update len d =>
    rw [exec, execUpdate]
    refine whenReady_answers (fun t => ?_) alive
    split_ifs <;> exact ⟨_, rfl⟩
  | finalize => exact whenReady_answers (fun _ => ⟨_, rfl⟩) alive
  | reset => exact ⟨_, exec_reset_of_alive alive⟩

theorem step_answers {s : State} (hr : s.rst = false) (alive : s.phase ≠ .fault) : ∃ t, step s = .next t := by
  cases hd : decode (fetch s) with
  | ok i => rw [step_of_ok hr alive hd]; exact exec_answers i alive
  | empty => exact ⟨_, step_of_empty hr alive hd⟩
  | illegal x => exact ⟨_, step_of_illegal hr alive hd⟩
  | short op => exact ⟨_, step_of_short hr alive hd⟩

/-! ## The run loop -/

theorem runStops_eq_false_iff {s : State} : runStops s = false ↔ s.phase ≠ .fault ∧ s.pos < s.stream.length := by
  simp [runStops]

@[simp] theorem runStops_raise (code : FaultCode) (s : State) : runStops (raise code s) = true := rfl

theorem runLoop_of_stops (n : Nat) {s : State} (h : runStops s = true) : runLoop n s = s := by
  cases n <;> simp [runLoop, h]

theorem runLoop_succ_of_next (n : Nat) {s t : State} (hgo : runStops s = false) (h : step s = .next t) :
    runLoop (n + 1) s = runLoop n t := by
  simp [runLoop, hgo, h]

theorem encodedLength_pos (i : Instr) : 0 < encodedLength i := by cases i <;> simp [encodedLength]

theorem Completes.rst_eq {i : Instr} {s t : State} (h : Completes i s t) : t.rst = s.rst := by
  cases h <;> simp [blockEffect, updateEffect, finalizeEffect, resetEffect]

/-- With a byte left, a step completes a command or raises a fault: the stream has not ended (R78). -/
theorem step_cases_of_go {s t : State} (hgo : runStops s = false) (hr : s.rst = false) (h : step s = .next t) :
    (∃ i, decode (fetch s) = .ok i ∧ Completes i s t) ∨ ∃ code, t = raise code s := by
  rcases step_next h with ⟨rst, -⟩ | ⟨-, -, ⟨i, hd, he⟩ | ⟨hd, -⟩ | ⟨x, -, ht⟩ | ⟨op, -, ht⟩⟩
  · simp [hr] at rst
  · exact (exec_completes_or_raises he).imp (⟨i, hd, ·⟩) fun ⟨code, _, ht⟩ => ⟨code, ht⟩
  · have hend : s.stream.length ≤ s.pos := List.drop_eq_nil_iff.mp (decode_eq_empty_iff.mp hd)
    have hpos := (runStops_eq_false_iff.mp hgo).2
    omega
  · exact .inr ⟨_, ht⟩
  · exact .inr ⟨_, ht⟩

/-- A step of the run loop that goes on consumes at least a byte, and no more than there are, or enters FAULT (R78). -/
theorem step_progress {s : State} (hgo : runStops s = false) (hr : s.rst = false) :
    ∃ t, step s = .next t ∧ t.rst = false ∧ t.stream = s.stream ∧ PosInv t ∧
      (runStops t = true ∨ s.pos < t.pos) := by
  obtain ⟨alive, hpos⟩ := runStops_eq_false_iff.mp hgo
  obtain ⟨t, ht⟩ := step_answers hr alive
  refine ⟨t, ht, ?_⟩
  rcases step_cases_of_go hgo hr ht with ⟨i, hd, hc⟩ | ⟨code, rfl⟩
  · have hlen := encodedLength_pos i
    exact ⟨hc.rst_eq.trans hr, hc.stream_eq, hc.establishes_posInv hd, .inr (by rw [hc.pos_eq]; omega)⟩
  · exact ⟨hr, rfl, hpos.le, .inl (runStops_raise code s)⟩

/-- With one iteration per byte left the run loop stops (R78). -/
theorem runLoop_reaches_stop (n : Nat) {s : State} (hr : s.rst = false) (hpos : PosInv s)
    (hn : runStops s = true ∨ s.stream.length ≤ s.pos + n) :
    runStops (runLoop n s) = true ∧ (runLoop n s).stream = s.stream ∧ PosInv (runLoop n s) := by
  induction n generalizing s with
  | zero =>
    have hstop : runStops s = true := by simpa [runStops] using hn
    exact ⟨hstop, rfl, hpos⟩
  | succ n ih =>
    cases hgo : runStops s with
    | true =>
      rw [runLoop_of_stops _ hgo]
      exact ⟨hgo, rfl, hpos⟩
    | false =>
      obtain ⟨t, ht, hrt, hstream, hpost, hprog⟩ := step_progress hgo hr
      rw [runLoop_succ_of_next n hgo ht, ← hstream]
      refine ih hrt hpost (hprog.imp_right fun hlt => ?_)
      have hfuel : s.stream.length ≤ s.pos + (n + 1) := by simpa [hgo] using hn
      rw [hstream]
      omega

/-- Settles O19: from `pos` 0 there is an iteration for every byte of the stream. -/
theorem runReachesItsStop : Obligations.RunReachesItsStop := by
  intro bytes s hr
  obtain ⟨hstop, hstream, hpos⟩ :=
    runLoop_reaches_stop (bytes.length + 1) (s := { s with stream := bytes, pos := 0 }) hr (Nat.zero_le _) (.inr (by simp))
  rw [PosInv, hstream] at hpos
  exact ⟨hstop, hstream, hpos⟩

end Sys2Proof.Proofs
end

section
/-!
PROOFS. The selection code of a round and the two multiplexers it drives (30_encoding.md R76, 40_datapath_primitives.md
R103, R104).
-/
namespace Sys2Proof.Proofs

open Sys2Proof.Machine Sys2Proof.Claims

/-- What the selection code drives changes with the four ranges of twenty rounds (R76). -/
theorem apply_fsel_eq_ite {α : Type} (f : Fin 4 → α) (t : Fin 80) :
    f (fsel t) = if t.val < 20 then f 0 else if t.val < 40 then f 1 else if t.val < 60 then f 2 else f 3 := by
  have sel {k : Fin 4} (hk : t.val / 20 = k.val) : f (fsel t) = f k := congrArg f (Fin.ext hk)
  split_ifs
  · exact sel (k := 0) (by omega)
  · exact sel (k := 1) (by omega)
  · exact sel (k := 2) (by omega)
  · exact sel (k := 3) (by omega)

/-- Settles O36: both multiplexers are functions of the selection code. -/
theorem roundSelectionsByRange : Obligations.RoundSelectionsByRange :=
  fun t => ⟨rfl, apply_fsel_eq_ite kMux t, fun b c d => apply_fsel_eq_ite (fMux · b c d) t⟩

end Sys2Proof.Proofs
end

section
/-!
PROOFS. The datapath primitives: rotate-left, the logical functions, the adders and the byte and word converters
(40_datapath_primitives.md R100 to R109).
-/
namespace Sys2Proof.Proofs

open Sys2Proof.Machine Sys2Proof.Claims

/-! ## Rotate-left -/

/-- `ROTL_n` is the library's rotation (R100). -/
theorem rotl_eq_rotateLeft {n : Nat} (hn : n < 32) (x : Word) : rotl n x = x.rotateLeft n :=
  (BitVec.rotateLeft_eq_rotateLeftAux_of_lt hn).symm

/-- The bits shifted out at the top re-enter below the others, so the two halves of a rotation add up (R100). -/
theorem rotl_toNat {n : Nat} (hn : n < 32) (x : Word) :
    (rotl n x).toNat = 2 ^ n * x.toNat % 2 ^ 32 + x.toNat / 2 ^ (32 - n) := by
  have split_pow : 2 ^ 32 = 2 ^ n * 2 ^ (32 - n) := by rw [← Nat.pow_add, Nat.add_sub_cancel' hn.le]
  have reenter_lt : x.toNat / 2 ^ (32 - n) < 2 ^ n :=
    Nat.div_lt_of_lt_mul (by rw [Nat.mul_comm, ← split_pow]; exact x.isLt)
  rw [rotl, BitVec.toNat_or, BitVec.toNat_shiftLeft, BitVec.toNat_ushiftRight, Nat.shiftLeft_eq, Nat.mul_comm x.toNat,
    Nat.shiftRight_eq_div_pow, split_pow, Nat.mul_mod_mul_left, Nat.two_pow_add_eq_or_of_lt reenter_lt]

/-- Bit `i` of a rotation is bit `(i - n) mod 32` of its operand (R100). -/
theorem rotl_getLsbD {n i : Nat} (hn : n < 32) (hi : i < 32) (x : Word) :
    (rotl n x).getLsbD i = x.getLsbD ((i + 32 - n) % 32) := by
  rw [rotl_eq_rotateLeft hn, BitVec.getLsbD_rotateLeft_of_le hn]
  by_cases h : i < n
  · rw [decide_eq_true h, cond_true, Nat.mod_eq_of_lt (by omega), Nat.add_comm i, Nat.sub_add_comm hn.le]
  · rw [decide_eq_false h, cond_false, decide_eq_true hi, Bool.true_and, Nat.sub_add_comm (not_lt.mp h),
      Nat.add_mod_right, Nat.mod_eq_of_lt (by omega)]

/-- Settles O34: the library's rotation, by value and bit by bit. -/
theorem rotateLeftMovesBits : Obligations.RotateLeftMovesBits :=
  fun _ x _ hn => ⟨rotl_toNat hn x, fun _ hi => rotl_getLsbD hn hi x⟩

/-! ## The logical functions -/

/-- Ch takes the bit of `c` where the bit of `b` is 1 and the bit of `d` where it is 0 (R103). -/
theorem fMux_zero_getLsbD (b c d : Word) {i : Nat} (hi : i < 32) :
    (fMux 0 b c d).getLsbD i = if b.getLsbD i then c.getLsbD i else d.getLsbD i := by
  simp only [fMux, BitVec.getLsbD_or, BitVec.getLsbD_and, BitVec.getLsbD_not, decide_eq_true hi, Bool.true_and]
  cases b.getLsbD i <;> simp

/-- Parity is the exclusive or of the three bits (R103). -/
theorem fMux_one_getLsbD (b c d : Word) (i : Nat) :
    (fMux 1 b c d).getLsbD i = (b.getLsbD i ^^ c.getLsbD i ^^ d.getLsbD i) := by
  simp only [fMux, BitVec.getLsbD_xor]

/-- Maj is the disjunction of the three pairs (R103). -/
theorem fMux_two_getLsbD (b c d : Word) (i : Nat) :
    (fMux 2 b c d).getLsbD i =
      (b.getLsbD i && c.getLsbD i || b.getLsbD i && d.getLsbD i || c.getLsbD i && d.getLsbD i) := by
  simp only [fMux, BitVec.getLsbD_or, BitVec.getLsbD_and]

theorem xor_eq_odd_count : ∀ b c d : Bool,
    (b ^^ c ^^ d) = (b.toNat + c.toNat + d.toNat == 1 || b.toNat + c.toNat + d.toNat == 3) := by decide

theorem majority_eq_two_le_count : ∀ b c d : Bool,
    (b && c || b && d || c && d) = decide (2 ≤ b.toNat + c.toNat + d.toNat) := by decide

/-- The form of Ch without a complement (R103). -/
theorem fMux_zero_eq_xor (b c d : Word) : fMux 0 b c d = d ^^^ (b &&& (c ^^^ d)) := by
  apply BitVec.eq_of_getLsbD_eq
  intro i hi
  rw [fMux_zero_getLsbD b c d hi, BitVec.getLsbD_xor, BitVec.getLsbD_and, BitVec.getLsbD_xor,
    Bool.xor_comm (c.getLsbD i)]
  cases b.getLsbD i <;> simp

/-- The form of Maj with one operation fewer (R103). -/
theorem fMux_two_eq_or (b c d : Word) : fMux 2 b c d = (b &&& c) ||| (d &&& (b ||| c)) := by
  apply BitVec.eq_of_getLsbD_eq
  intro i _
  rw [fMux_two_getLsbD, BitVec.getLsbD_or, BitVec.getLsbD_and, BitVec.getLsbD_and, BitVec.getLsbD_or, Bool.or_assoc,
    Bool.and_or_distrib_left, Bool.and_comm (d.getLsbD i), Bool.and_comm (d.getLsbD i)]

/-- Settles O35: each selection at one bit position, and the equivalent forms. -/
theorem logicalFunctionsBitByBit : Obligations.LogicalFunctionsBitByBit := by
  intro b c d
  refine ⟨fun i hi => ⟨fMux_zero_getLsbD b c d hi, ?_, ?_⟩, rfl, fMux_zero_eq_xor b c d, fMux_two_eq_or b c d⟩
  · rw [fMux_one_getLsbD, xor_eq_odd_count]
  · rw [fMux_two_getLsbD, majority_eq_two_le_count]

/-! ## The adders -/

/-- The carry of `ADD32` is discarded (R105). -/
theorem add32_toNat (xs : List Word) : (add32 xs).toNat = (xs.map BitVec.toNat).sum % 2 ^ 32 := BitVec.toNat_ofNat _ _

/-- The order of the operands of `ADD32` does not matter (R105). -/
theorem add32_perm {xs ys : List Word} (h : xs.Perm ys) : add32 xs = add32 ys := by
  rw [add32, add32, (h.map BitVec.toNat).sum_nat]

/-- The carry of `ADD64` is discarded (R106). -/
theorem add64_toNat (x y : DWord) : (add64 x y).toNat = (x.toNat + y.toNat) % 2 ^ 64 := BitVec.toNat_ofNat _ _

/-- Settles O37: each adder reduces a sum of naturals, which no permutation changes. -/
theorem addersWrap : Obligations.AddersWrap := ⟨add32_toNat, fun _ _ => add32_perm, add64_toNat⟩

/-! ## The converters -/

/-- The big-endian value of `BYTES64` is the 64-bit value (R109). -/
theorem bytes64_bigEndian_value (v : DWord) : (bytes64 v).foldl (fun acc b => 256 * acc + b.toNat) 0 = v.toNat := by
  simp only [bytes64, List.foldl_cons, List.foldl_nil, BitVec.extractLsb'_toNat, Nat.shiftRight_eq_div_pow]
  omega

/-- Settles O38: the value of each converter, and that `BE32` and `BYTES32` undo each other. -/
theorem convertersUndoEachOther : Obligations.ConvertersUndoEachOther :=
  ⟨fun b0 b1 b2 b3 => ⟨be32_toNat b0 b1 b2 b3, bytes32_be32 b0 b1 b2 b3⟩,
    fun w => ⟨_, _, _, _, rfl, be32_bytes32 w⟩, fun v => ⟨bytes64_length v, bytes64_bigEndian_value v⟩⟩

end Sys2Proof.Proofs
end

section
/-!
PROOFS. The message schedule meets its recurrence (40_datapath_primitives.md R108, 41_compress_block.md R120).
-/
namespace Sys2Proof.Proofs

open Sys2Proof.Machine Sys2Proof.Claims

/-- A property of the state and the index that holds at the start of a pass and moves on with each step holds at its
end. -/
theorem foldl_finRange_induction {α : Type} {n : Nat} {P : Nat → α → Prop} {f : α → Fin n → α}
    (hf : ∀ (i : Fin n) (x : α), P i x → P (i + 1) (f x i)) {x : α} (h : P 0 x) :
    P n ((List.finRange n).foldl f x) := by
  induction n with
  | zero => exact h
  | succ n ih =>
    simp only [List.finRange_succ_last, List.foldl_append, List.foldl_map, List.foldl_cons, List.foldl_nil]
    exact hf (Fin.last n) _ (ih fun i => hf i.castSucc)

/-- What word `t` of the schedule must be: a word of the block (R108), or the recurrence over four earlier words of the
file (R120). -/
def dueWord (blk : Block) (w : Sched) (t : Nat) (ht : t < 80) : Word :=
  if h : t < 16 then blockWord blk ⟨t, h⟩ else rotl 1 (w[t - 3] ^^^ w[t - 8] ^^^ w[t - 14] ^^^ w[t - 16])

/-- The schedule file holds what it must below index `n`. -/
def ScheduledBelow (blk : Block) (n : Nat) (w : Sched) : Prop :=
  ∀ (t : Nat) (ht : t < 80), t < n → w[t] = dueWord blk w t ht

/-- A write leaves the words below its index. -/
theorem agreeBelow_set_self (w : Sched) {n : Nat} (hn : n < 80) (v : Word) : AgreeBelow n w (w.set n v) :=
  fun _ _ hj => (Vector.getElem_set_ne hn _ (Nat.ne_of_gt hj)).symm

/-- What a word must be depends on earlier words only (R120). -/
theorem AgreeBelow.dueWord_eq {t : Nat} {w w' : Sched} (h : AgreeBelow t w w') (blk : Block) (ht : t < 80) :
    dueWord blk w t ht = dueWord blk w' t ht := by
  unfold dueWord
  split
  · rfl
  · rw [h (t - 3) (by omega) (by omega), h (t - 8) (by omega) (by omega), h (t - 14) (by omega) (by omega),
      h (t - 16) (by omega) (by omega)]

theorem AgreeBelow.mono {m n : Nat} {w w' : Sched} (h : AgreeBelow n w w') (hmn : m ≤ n) : AgreeBelow m w w' :=
  fun j hj hjm => h j hj (hjm.trans_le hmn)

/-- Writing the word that is due next settles one word more. -/
theorem ScheduledBelow.set {blk : Block} {n : Nat} {w : Sched} (h : ScheduledBelow blk n w) (hn : n < 80) :
    ScheduledBelow blk (n + 1) (w.set n (dueWord blk w n hn)) := by
  intro t ht htn
  have agree := agreeBelow_set_self w hn (dueWord blk w n hn)
  obtain hlt | rfl := Nat.lt_succ_iff_lt_or_eq.mp htn
  · rw [← agree t ht hlt, h t ht hlt, (agree.mono hlt.le).dueWord_eq]
  · rw [Vector.getElem_set_self, ← agree.dueWord_eq]

/-- The converter writes the word that is due (R108). -/
theorem loadWord_eq_set_dueWord (blk : Block) (w : Sched) (i : Fin 16) :
    loadWord blk w i = w.set i.val (dueWord blk w i.val (by omega)) := by
  rw [loadWord, dueWord, dif_pos i.isLt]

/-- The expansion writes the word that is due (R120). -/
theorem expandWord_eq_set_dueWord (blk : Block) (w : Sched) (i : Fin 64) :
    expandWord w i = w.set (i.val + 16) (dueWord blk w (i.val + 16) (by omega)) := by
  rw [expandWord, dueWord, dif_neg (by omega)]
  rfl

/-- The converter settles the words below 16 (R108). -/
theorem scheduledBelow_convert (blk : Block) (w : Sched) : ScheduledBelow blk 16 (convert blk w) := by
  refine foldl_finRange_induction (P := ScheduledBelow blk) (fun i w h => ?_)
    fun t _ ht => absurd ht (Nat.not_lt_zero t)
  rw [loadWord_eq_set_dueWord]
  exact h.set _

/-- The expansion settles the others (R120). -/
theorem scheduledBelow_expand {blk : Block} {w : Sched} (h : ScheduledBelow blk 16 w) :
    ScheduledBelow blk 80 (expand w) := by
  refine foldl_finRange_induction (n := 64) (P := fun k => ScheduledBelow blk (k + 16)) (fun i w h => ?_) h
  rw [expandWord_eq_set_dueWord blk, Nat.add_right_comm]
  exact h.set _

/-- Every word of the schedule is what it must be, whatever the file held before (R108, R120). -/
theorem scheduledBelow_scheduleFrom (w0 : Sched) (blk : Block) : ScheduledBelow blk 80 (scheduleFrom w0 blk) :=
  scheduledBelow_expand (scheduledBelow_convert blk w0)

theorem toList_getD_eq_getElem (w : Sched) {t : Nat} (ht : t < 80) : w.toList.getD t 0#32 = w[t] := by
  rw [List.getD_eq_getElem _ _ (by simpa using ht), Vector.getElem_toList]

/-- A sequence read from a file that holds what it must meets the equations of a schedule (R108, R120). -/
theorem ScheduledBelow.isSchedule {blk : Block} {w : Sched} (h : ScheduledBelow blk 80 w) {word : Nat → Word}
    (read : ∀ (t : Nat) (ht : t < 80), word t = w[t]) : IsSchedule blk word := by
  constructor
  · intro i
    rw [read i (by omega), h i (by omega) (by omega), dueWord, dif_pos i.isLt, blockWord]
  · intro t h16 h80
    rw [read t h80, read (t - 3) (by omega), read (t - 8) (by omega), read (t - 14) (by omega),
      read (t - 16) (by omega), h t h80 h80, dueWord, dif_neg (by omega), rotl_eq_rotateLeft (by decide)]

/-- Settles O41: the converter and then the expansion write each word when it is due. -/
theorem scheduleMeetsRecurrence : Obligations.ScheduleMeetsRecurrence :=
  fun w0 blk => (scheduledBelow_scheduleFrom w0 blk).isSchedule fun _ => toList_getD_eq_getElem _

end Sys2Proof.Proofs
end

section
/-!
PROOFS. The meaning of BLOCK (41_compress_block.md R125).
-/
namespace Sys2Proof.Proofs

open Sys2Proof.Machine Sys2Proof.Laws Sys2Proof.Claims

theorem raised_raise (code : FaultCode) (s : State) : Raised code s (raise code s) :=
  ⟨rfl, rfl, rfl, rfl, rfl, rfl, rfl⟩

theorem exec_block_of_ready {s : State} (h : s.phase = .ready) (b : Block) :
    exec (.block b) s = .next (blockEffect b s) := by
  rw [exec, execBlock, whenReady_of_ready h]

theorem exec_block_of_done {s : State} (h : s.phase = .done) (b : Block) :
    exec (.block b) s = .next (raise .usage s) := by
  rw [exec, execBlock, whenReady_of_done h]

/-- Settles O46: the effect writes `h` and `pos` alone; DONE and a payload cut short raise their faults. -/
theorem blockCompressesOnly : Obligations.BlockCompressesOnly := by
  intro s
  refine ⟨fun b ready => ⟨_, exec_block_of_ready ready b, ?_⟩,
    fun b done => ⟨_, exec_block_of_done done b, raised_raise _ s⟩,
    fun rest ready hr hf short => ⟨raise .length s, ?_, raised_raise _ s⟩⟩
  · exact ⟨rfl, rfl, rfl, rfl, ready, rfl, rfl, ⟨rfl, rfl, rfl⟩, rfl, rfl⟩
  · have hd : decode (fetch s) = .short .block := by rw [hf, decode_block_of_short short]
    rw [step_of_short hr (by simp [ready]) hd, ready]
    rfl

end Sys2Proof.Proofs
end

section
/-!
PROOFS. The schedule of a block is fixed by its equations, and the sliding window of 16 words carries it
(41_compress_block.md R120, R121).
-/
namespace Sys2Proof.Proofs

open Sys2Proof.Machine Sys2Proof.Claims

/-! ## The equations fix the schedule -/

/-- Two files that hold what they must below an index agree there: each word is fixed by the earlier ones. -/
theorem ScheduledBelow.agreeBelow {blk : Block} {n : Nat} {w w' : Sched} (h : ScheduledBelow blk n w)
    (h' : ScheduledBelow blk n w') : AgreeBelow n w w' := by
  intro j hj hjn
  induction j using Nat.strong_induction_on with
  | _ j ih =>
    have below : AgreeBelow j w w' := fun i hi hij => ih i hij hi (hij.trans hjn)
    rw [h j hj hjn, h' j hj hjn, below.dueWord_eq]

theorem ScheduledBelow.mono {blk : Block} {m n : Nat} {w : Sched} (h : ScheduledBelow blk n w) (hmn : m ≤ n) :
    ScheduledBelow blk m w := fun t ht htm => h t ht (htm.trans_le hmn)

theorem scheduledBelow_schedule (blk : Block) : ScheduledBelow blk 80 (schedule blk) :=
  scheduledBelow_scheduleFrom _ blk

/-- A sequence that meets the equations, written into a file, fills it with what it must hold. -/
theorem scheduledBelow_ofFn {blk : Block} {word : Nat → Word} (h : IsSchedule blk word) :
    ScheduledBelow blk 80 (Vector.ofFn fun t => word t.val) := by
  obtain ⟨load, recur⟩ := h
  intro t ht _
  by_cases h16 : t < 16
  · rw [Vector.getElem_ofFn, dueWord, dif_pos h16, load ⟨t, h16⟩, blockWord]
  · simp only [dueWord, dif_neg h16, Vector.getElem_ofFn]
    rw [recur t (by omega) ht, rotl_eq_rotateLeft (by decide)]

/-- The equations of R108 and R120 have one solution, the schedule of the model. -/
theorem schedule_getElem_of_isSchedule {blk : Block} {word : Nat → Word} (h : IsSchedule blk word) {t : Nat}
    (ht : t < 80) : (schedule blk)[t] = word t := by
  rw [(scheduledBelow_schedule blk).agreeBelow (scheduledBelow_ofFn h) t ht ht, Vector.getElem_ofFn]

/-- Word `i + 16` of the schedule by the recurrence (R120). -/
theorem schedule_recurrence (blk : Block) (i : Fin 64) :
    (schedule blk)[i.val + 16] = rotl 1 ((schedule blk)[i.val + 13] ^^^ (schedule blk)[i.val + 8] ^^^
      (schedule blk)[i.val + 2] ^^^ (schedule blk)[i.val]) := by
  rw [scheduledBelow_schedule blk (i.val + 16) (by omega) (by omega), dueWord, dif_neg (by omega)]
  rfl

/-! ## The sliding window -/

/-- The window stands at offset `i` of the schedule: it holds the words `i .. i + 15`, each in its slot modulo 16. -/
def HoldsWindow (blk : Block) (i : Nat) (w : Vector Word 16) : Prop :=
  ∀ (j : Nat) (hj : j < 80), i ≤ j → j < i + 16 → w[j % 16] = (schedule blk)[j]

theorem holdsWindow_load (blk : Block) : HoldsWindow blk 0 (windowLoad blk) := by
  intro j hj _ hj16
  rw [scheduledBelow_schedule blk j hj hj, dueWord, dif_pos (by omega), windowLoad, Vector.getElem_ofFn]
  simp only [Nat.mod_eq_of_lt (show j < 16 by omega)]

/-- One step replaces the oldest word by the next one of the schedule (R121). -/
theorem HoldsWindow.step {blk : Block} {w : Vector Word 16} (i : Fin 64) (h : HoldsWindow blk i.val w) :
    HoldsWindow blk (i.val + 1) (windowStep w i) := by
  have read (k : Nat) (hk : k < 16) : w[(i.val + k) % 16] = (schedule blk)[i.val + k] :=
    h _ (by omega) (by omega) (by omega)
  have written : windowStep w i = w.set ((i.val + 16) % 16) (schedule blk)[i.val + 16] (Nat.mod_lt _ (by omega)) := by
    simp only [windowStep, schedule_recurrence, Nat.add_mod_right, Nat.mod_add_mod, read 13 (by decide),
      read 8 (by decide), read 2 (by decide), h i.val (by omega) le_rfl (by omega)]
  intro j hj hij hji
  simp only [written]
  obtain hold | rfl := Nat.lt_succ_iff_lt_or_eq.mp hji
  · rw [Vector.getElem_set_ne _ _ (by omega)]
    exact h j hj (by omega) hold
  · rw [Vector.getElem_set_self]

/-- What `foldl_finRange_induction` says of a whole pass, for a pass cut after `k` of its steps. -/
theorem foldl_take_finRange_induction {α : Type} {k n : Nat} (hk : k ≤ n) {P : Nat → α → Prop} {f : α → Fin n → α}
    (hf : ∀ (i : Fin n) (x : α), P i x → P (i + 1) (f x i)) {x : α} (h : P 0 x) :
    P k (((List.finRange n).take k).foldl f x) := by
  have cut : (List.finRange n).take k = (List.finRange k).map (Fin.castLE hk) :=
    List.ext_getElem (by simp [hk]) (by simp)
  rw [cut, List.foldl_map]
  exact foldl_finRange_induction (P := P) (fun i => hf (i.castLE hk)) h

theorem holdsWindow_windowAt (blk : Block) (t : Fin 80) : HoldsWindow blk (t.val - 15) (windowAt blk t) :=
  foldl_take_finRange_induction (P := HoldsWindow blk) (by omega) (fun i _ h => h.step i) (holdsWindow_load blk)

/-- Settles O43: before round `t` the window stands where word `t` is the newest it holds, or still at its load. -/
theorem slidingWindowIsTheSchedule : Obligations.SlidingWindowIsTheSchedule :=
  fun blk t => holdsWindow_windowAt blk t t.val t.isLt (by omega) (by omega)

end Sys2Proof.Proofs
end

section
/-!
PROOFS. The rounds of a compression: by their equations (41_compress_block.md R122 to R124), and by the 82 micro-steps,
where each round computes its own word of the schedule (R126).
-/
namespace Sys2Proof.Proofs

open Sys2Proof.Machine Sys2Proof.Claims

/-! ## The round equations -/

theorem add32_nil : add32 [] = 0#32 := rfl

theorem add32_cons (x : Word) (xs : List Word) : add32 (x :: xs) = x + add32 xs := by
  apply BitVec.eq_of_toNat_eq
  rw [BitVec.toNat_add, add32_toNat, add32_toNat, List.map_cons, List.sum_cons, Nat.add_mod_mod]

/-- The round sum by the written-out function and constant of round `t` (R103, R104, R123). -/
theorem roundSum_eq (w : Sched) (r : Work) (t : Fin 80) :
    roundSum w r t =
      r.a.rotateLeft 5 + roundFun t.val r.b r.c r.d + r.e + roundConst t.val + w[t.val] := by
  obtain ⟨-, const, logic⟩ := roundSelectionsByRange t
  rw [roundSum, const, logic, rotl_eq_rotateLeft (by decide)]
  simp only [add32_cons, add32_nil, BitVec.add_zero, BitVec.add_assoc]

/-- Working registers that meet the equations are those the rounds leave. -/
theorem rounds_of_isRounds {h : Chain} {w : Sched} {word a b c d e : Nat → Word} (hr : IsRounds h word a b c d e)
    (read : ∀ (t : Nat) (ht : t < 80), w[t] = word t) :
    rounds w (loadWork h) = ⟨a 80, b 80, c 80, d 80, e 80⟩ := by
  obtain ⟨⟨ha, hb, hc, hd, he⟩, round⟩ := hr
  refine foldl_finRange_induction (n := 80) (P := fun t r => r = Work.mk (a t) (b t) (c t) (d t) (e t))
    (fun t r regs => ?_) ?_
  · obtain ⟨na, nb, nc, nd, ne⟩ := round t t.isLt
    rw [regs, sha1Round, roundSum_eq, shiftWork, rotl_eq_rotateLeft (by decide), read t t.isLt, na, nb, nc, nd, ne]
  · rw [loadWork, ha, hb, hc, hd, he]

/-- Settles O44: the equations fix the schedule and, over it, the working registers after round 79. -/
theorem compressMeetsRoundEquations : Obligations.CompressMeetsRoundEquations := by
  intro h blk w a b c d e hw hr
  rw [compress, rounds_of_isRounds hr fun _ => schedule_getElem_of_isSchedule hw]
  simp only [feedForward, add32_cons, add32_nil, BitVec.add_zero]

/-! ## The 82 micro-steps -/

/-- A relation of two passes over the same indices that holds at their start and moves on with each step holds at their
end. -/
theorem foldl_finRange_induction₂ {α β : Type} {n : Nat} {R : Nat → α → β → Prop} {f : α → Fin n → α}
    {g : β → Fin n → β} (hfg : ∀ (i : Fin n) (x : α) (y : β), R i x y → R (i + 1) (f x i) (g y i)) {x : α} {y : β}
    (h : R 0 x y) : R n ((List.finRange n).foldl f x) ((List.finRange n).foldl g y) := by
  have pairs := foldl_finRange_induction (P := fun i p => R i p.1 p.2) (f := fun p i => (f p.1 i, g p.2 i))
    (fun i p => hfg i p.1 p.2) (x := (x, y)) h
  rwa [← List.foldl_hom Prod.fst (g₂ := f) fun _ _ => rfl, ← List.foldl_hom Prod.snd (g₂ := g) fun _ _ => rfl] at pairs

/-- The rounds leave the chaining registers (R126). -/
theorem foldl_microStep_round (blk : Block) (h : Chain) (ts : List (Fin 80)) (x : Hidden) :
    (ts.map .round).foldl (microStep blk) (h, x) = (h, ts.foldl microRound x) := by
  induction ts generalizing x with
  | nil => rfl
  | cons t ts ih => exact ih (microRound x t)

/-- The composite is LOAD, the rounds and ADD, one after another. -/
theorem microCompress_fst (h : Chain) (blk : Block) (x : Hidden) :
    (microCompress h blk x).1 = feedForward h ((List.finRange 80).foldl microRound (microLoad blk h x)).work := by
  rw [microCompress, microSchedule, List.foldl_cons, List.foldl_append, microStep, foldl_microStep_round]
  rfl

/-- Before round `t` the file holds the words below 16 and those below `t`; the round's own word is settled before the
round reads it. -/
theorem ScheduledBelow.microExpand {blk : Block} {w : Sched} (t : Fin 80) (h : ScheduledBelow blk (max 16 t.val) w) :
    ScheduledBelow blk (max 16 (t.val + 1)) (microExpand w t) := by
  unfold Machine.microExpand
  split
  · next h16 =>
    rw [expandWord_eq_set_dueWord blk, max_eq_right (by omega)]
    simp only [Nat.sub_add_cancel h16]
    exact (h.mono (le_max_right _ _)).set t.isLt
  · exact h.mono (by omega)

/-- The hidden registers before round `t` against the working registers `r` of the atomic view. -/
def TracksRounds (blk : Block) (t : Nat) (x : Hidden) (r : Work) : Prop :=
  ScheduledBelow blk (max 16 t) x.w ∧ x.work = r

theorem tracksRounds_microLoad (blk : Block) (h : Chain) (x : Hidden) :
    TracksRounds blk 0 (microLoad blk h x) (loadWork h) := ⟨scheduledBelow_convert blk x.w, rfl⟩

theorem TracksRounds.round {blk : Block} {x : Hidden} {r : Work} (t : Fin 80) (h : TracksRounds blk t.val x r) :
    TracksRounds blk (t.val + 1) (microRound x t) (sha1Round (schedule blk) r t) := by
  obtain ⟨sched, rfl⟩ := h
  have sched' := sched.microExpand t
  have word : (microExpand x.w t)[t.val] = (schedule blk)[t.val] :=
    sched'.agreeBelow ((scheduledBelow_schedule blk).mono (by omega)) t.val t.isLt (by omega)
  exact ⟨sched', by rw [microRound, sha1Round, roundSum_eq, roundSum_eq, word]⟩

/-- Settles O45: the rounds of the two views stay in step, LOAD starts them alike and ADD is the feed-forward. -/
theorem microStepsComposeToCompress : Obligations.MicroStepsComposeToCompress := by
  refine ⟨by simp [microSchedule], fun h blk x => ?_⟩
  obtain ⟨-, work⟩ := foldl_finRange_induction₂ (R := TracksRounds blk) (fun t _ _ => TracksRounds.round t)
    (tracksRounds_microLoad blk h x)
  rw [microCompress_fst, work, compress, rounds]

end Sys2Proof.Proofs
end

section
/-!
PROOFS. Absorbing and the meaning of UPDATE (42_update.md R140 to R143).
-/
namespace Sys2Proof.Proofs

open Sys2Proof.Machine Sys2Proof.Laws Sys2Proof.Claims

/-! ## `Absorb` by the fill count -/

theorem absorb_of_fill_lt (x : Byte) {s : State} (wf : Memory.wf s.buf s.fill = true) (h : s.fill.val < 63) :
    absorb x s = { s with buf := s.buf ++ [x], fill := s.fill + 1 } := by
  rcases absorb_cases x s with ⟨b, hb, -⟩ | ⟨-, e⟩
  · have full := congrArg List.length hb
    have len := memory_wf_iff.mp wf
    simp only [Vector.length_toList, List.length_append, List.length_singleton] at full
    omega
  · exact e

theorem absorb_of_fill_eq (x : Byte) {s : State} (wf : Memory.wf s.buf s.fill = true) (h : s.fill.val = 63) :
    ∃ b : Block, b.toList = s.buf ++ [x] ∧ absorb x s = { s with h := compress s.h b, buf := [], fill := 0 } := by
  rcases absorb_cases x s with full | ⟨hne, -⟩
  · exact full
  · exact absurd ((memory_wf_iff.mp wf).trans h) hne

/-- Settles O47: the two branches of `Absorb`, told apart by the fill count; the frame is that of every `Absorb`. -/
theorem absorbAppendsOrCompresses : Obligations.AbsorbAppendsOrCompresses := by
  refine fun x s wf => ⟨fun lt => ?_, fun eq => ?_, absorb_count x s, absorb_phase x s, absorb_out x s⟩
  · rw [absorb_fill x wf, absorb_of_fill_lt x wf lt]
    exact ⟨rfl, Nat.mod_eq_of_lt (by omega), rfl⟩
  · obtain ⟨b, hb, e⟩ := absorb_of_fill_eq x wf eq
    exact ⟨b, hb, by rw [e], by rw [e], by rw [e]⟩

/-! ## The answer of UPDATE -/

theorem exec_update_of_ready {len : Int} {d : List Byte} {s : State} (ready : s.phase = .ready) (lo : 0 ≤ len)
    (hi : len ≤ d.length) : exec (.update len d) s = .next (updateEffect len.toNat d s) := by
  rw [exec, execUpdate, whenReady_of_ready ready, if_neg (by omega), if_neg (by omega)]

theorem exec_update_of_badLength {len : Int} {d : List Byte} {s : State} (ready : s.phase = .ready)
    (bad : len < 0 ∨ (d.length : Int) < len) : exec (.update len d) s = .next (raise .length s) := by
  rw [exec, execUpdate, whenReady_of_ready ready]
  rcases bad with neg | big
  · rw [if_pos neg]
  · rw [if_neg (by omega), if_pos big]

theorem exec_update_of_done {s : State} (done : s.phase = .done) (len : Int) (d : List Byte) :
    exec (.update len d) s = .next (raise .usage s) := by
  rw [exec, execUpdate, whenReady_of_done done]

/-- UPDATE of all the bytes it carries (R79, R141). -/
theorem exec_updateBytes_of_ready {s : State} (ready : s.phase = .ready) (d : List Byte) :
    exec (.updateBytes d) s = .next (advance (5 + d.length) (addCount d.length (absorbAll d s))) := by
  rw [Instr.updateBytes, exec_update_of_ready ready (Int.natCast_nonneg _) le_rfl, Int.toNat_natCast, updateEffect,
    List.take_length]

/-- The bit counter advances by `8 * len` modulo `2^64`, whatever `len` is (R106, R141). -/
theorem addCount_toNat (len : Nat) (s : State) :
    (addCount len s).count.toNat = (s.count.toNat + 8 * len) % 2 ^ 64 := by
  rw [addCount_count, add64_toNat, BitVec.toNat_ofNat, Nat.add_mod_mod]

/-- Settles O49: the answer of UPDATE in each case; the effect is read off its three parts. -/
theorem updateAbsorbsAndCounts : Obligations.UpdateAbsorbsAndCounts := by
  intro len d s
  refine ⟨fun ready lo hi => ⟨_, _, exec_update_of_ready ready lo hi, rfl, rfl, rfl, rfl, ?_⟩,
    fun ready bad => ⟨_, exec_update_of_badLength ready bad, raised_raise _ s⟩,
    fun done => ⟨_, exec_update_of_done done len d, raised_raise _ s⟩,
    fun rest ready hr hf short => ⟨raise .length s, ?_, raised_raise _ s⟩⟩
  · rw [updateEffect, advance_count, addCount_toNat, absorbAll_count]
    simp [HostSame, ready, Nat.add_assoc]
  · have hd : decode (fetch s) = .short .update := by rw [hf, decode_update_of_short short]
    rw [step_of_short hr (by simp [ready]) hd, ready]
    rfl

/-! ## A chain of UPDATE commands -/

/-- `Absorb` neither reads nor writes `pos` and `count` (R140). -/
theorem absorb_advance_addCount (x : Byte) (m n : Nat) (s : State) :
    absorb x (advance m (addCount n s)) = advance m (addCount n (absorb x s)) := by
  rw [absorb, absorb, advance_buf, addCount_buf]
  cases blockOf? (s.buf ++ [x]) <;> rfl

theorem absorbAll_advance_addCount (xs : List Byte) (m n : Nat) (s : State) :
    absorbAll xs (advance m (addCount n s)) = advance m (addCount n (absorbAll xs s)) :=
  List.foldl_hom (fun s => advance m (addCount n s)) fun s x => absorb_advance_addCount x m n s

theorem addCount_zero (s : State) : addCount 0 s = s := by
  have count : (addCount 0 s).count = s.count :=
    BitVec.eq_of_toNat_eq ((addCount_toNat 0 s).trans (Nat.mod_eq_of_lt s.count.isLt))
  rw [addCount_count] at count
  rw [addCount, count]

theorem addCount_addCount (m n : Nat) (s : State) : addCount n (addCount m s) = addCount (m + n) s := by
  have count : (addCount n (addCount m s)).count = (addCount (m + n) s).count := by
    apply BitVec.eq_of_toNat_eq
    simp only [addCount_toNat]
    omega
  simp only [addCount_count] at count
  simp only [addCount, count]

theorem advance_addCount_advance_addCount (m n m' n' : Nat) (s : State) :
    advance m' (addCount n' (advance m (addCount n s))) = advance (m + m') (addCount (n + n') s) := by
  change advance m' (advance m (addCount n' (addCount n s))) = _
  rw [addCount_addCount, advance, advance, advance, Nat.add_assoc]

/-- Settles O51: nothing is absorbed, and the counter advances by nothing. -/
theorem zeroLengthUpdateIsNoop : Obligations.ZeroLengthUpdateIsNoop := by
  intro d s ready
  rw [exec_update_of_ready ready le_rfl (Int.natCast_nonneg _), updateEffect, Int.toNat_zero, List.take_zero,
    absorbAll_nil, addCount_zero, advance]

/-- UPDATE commands one after another absorb and count the bytes of their concatenation (R142). -/
theorem execAll_map_updateBytes (cs : List (List Byte)) {s : State} (ready : s.phase = .ready) :
    execAll (cs.map .updateBytes) s =
      some (advance (5 * cs.length + cs.flatten.length) (addCount cs.flatten.length (absorbAll cs.flatten s))) := by
  induction cs generalizing s with
  | nil => exact congrArg some (addCount_zero s).symm
  | cons c cs ih =>
    rw [List.map_cons, execAll, exec_updateBytes_of_ready ready]
    refine (ih (by simp [ready])).trans (congrArg some ?_)
    rw [absorbAll_advance_addCount, advance_addCount_advance_addCount, ← absorbAll_append, List.flatten_cons,
      List.length_append, List.length_cons]
    congr 1
    omega

/-- Settles O52: both sides absorb and count the same bytes; they differ in `pos` alone. -/
theorem chunkingInvariance : Obligations.ChunkingInvariance := fun cs _ ready =>
  ⟨_, _, execAll_map_updateBytes cs ready, exec_updateBytes_of_ready ready cs.flatten, rfl, rfl, rfl, rfl, rfl, rfl, rfl⟩

/-! ## Full blocks and tail -/

theorem fullBlocks_of_length_lt {m : List Byte} (h : m.length < 64) : fullBlocks m = [] := by
  rw [fullBlocks, Nat.div_eq_of_lt h]
  rfl

theorem tailBytes_of_length_lt {m : List Byte} (h : m.length < 64) : tailBytes m = m := by
  rw [tailBytes, Nat.div_eq_of_lt h]
  rfl

theorem toList_append_length_div (b : Block) (m : List Byte) : (b.toList ++ m).length / 64 = m.length / 64 + 1 := by
  simp only [List.length_append, Vector.length_toList]
  omega

/-- Dropping one more block than `k` drops the leading block first. -/
theorem drop_toList_append (b : Block) (m : List Byte) (k : Nat) :
    (b.toList ++ m).drop (64 * (k + 1)) = m.drop (64 * k) := by
  rw [Nat.mul_add_one, Nat.add_comm, ← List.drop_drop, List.drop_left' (by simp)]

/-- A leading full block is the first of the full blocks (R143). -/
theorem fullBlocks_toList_append (b : Block) (m : List Byte) : fullBlocks (b.toList ++ m) = b :: fullBlocks m := by
  have first : blockOf? (((b.toList ++ m).drop (64 * 0)).take 64) = some b := by
    rw [Nat.mul_zero, List.drop_zero, List.take_left' (by simp), blockOf?_toList]
  rw [fullBlocks, toList_append_length_div, List.range_succ_eq_map, List.filterMap_cons, first,
    List.filterMap_map, fullBlocks]
  simp only [Function.comp_def, Nat.succ_eq_add_one, drop_toList_append]

theorem tailBytes_toList_append (b : Block) (m : List Byte) : tailBytes (b.toList ++ m) = tailBytes m := by
  rw [tailBytes, toList_append_length_div, drop_toList_append, tailBytes]

/-! ## UPDATE in closed form -/

theorem compressAll_cons (h : Chain) (b : Block) (bs : List Block) :
    compressAll h (b :: bs) = compressAll (compress h b) bs := by
  simp only [compressAll, List.foldl_cons]

/-- What absorbing leaves: the full blocks of the bytes pending and absorbed are compressed in order, the bytes after
the last of them stay in the buffer (R140, R143). -/
theorem absorbAll_h_buf (xs : List Byte) {s : State} (wf : Memory.wf s.buf s.fill = true) :
    (absorbAll xs s).h = compressAll s.h (fullBlocks (s.buf ++ xs)) ∧
      (absorbAll xs s).buf = tailBytes (s.buf ++ xs) := by
  induction xs generalizing s with
  | nil =>
    have lt : s.buf.length < 64 := by rw [memory_wf_iff.mp wf]; exact s.fill.isLt
    rw [List.append_nil, fullBlocks_of_length_lt lt, tailBytes_of_length_lt lt]
    exact ⟨rfl, rfl⟩
  | cons x xs ih =>
    obtain ⟨hh, hbuf⟩ := ih (absorb_wf x wf)
    rw [absorbAll_cons, hh, hbuf, List.append_cons]
    rcases absorb_cases x s with ⟨b, hb, e⟩ | ⟨-, e⟩
    · rw [e, ← hb, fullBlocks_toList_append, tailBytes_toList_append, compressAll_cons]
      exact ⟨rfl, rfl⟩
    · rw [e]
      exact ⟨rfl, rfl⟩

/-- Settles O50: UPDATE absorbs the first `len` bytes; what absorbing leaves is known in closed form. -/
theorem updateClosedForm : Obligations.UpdateClosedForm := by
  intro len d s ready wf lo hi
  obtain ⟨hh, hbuf⟩ := absorbAll_h_buf (d.take len.toNat) wf
  have absorbed : (d.take len.toNat).length = len.toNat := List.length_take_of_le (by omega)
  refine ⟨_, exec_update_of_ready ready lo hi, hh, hbuf, ?_⟩
  rw [updateEffect, advance_fill, addCount_fill, absorbAll_fill _ wf, absorbed]

end Sys2Proof.Proofs
end

section
/-!
PROOFS. FINALIZE: the padding, the blocks it falls in, the digest it delivers (43_finalize.md R150 to R157).
-/
namespace Sys2Proof.Proofs

open Sys2Proof.Machine Sys2Proof.Laws Sys2Proof.Claims

/-! ## Who delivers -/

@[simp] theorem endOfStream_out (s : State) : (endOfStream s).out = s.out := by unfold endOfStream; split <;> rfl

/-- What a command that completes delivers: FINALIZE the serialized chaining value it leaves, any other nothing (R150,
R156). -/
theorem Completes.out_cases {i : Instr} {s t : State} (h : Completes i s t) :
    t.out = s.out ∨
      (s.phase = .ready ∧ i = .finalize ∧ t.phase = .done ∧ t.out = s.out ++ [serialize t.h]) := by
  cases h with
  | block => exact .inl rfl
  | update => exact .inl (by simp [updateEffect])
  | finalize ready => exact .inr ⟨ready, rfl, rfl, by simp [finalizeEffect]⟩
  | reset => exact .inl rfl

/-- Settles O21: of the events a step can be, only a command that completes can deliver, and then it is FINALIZE. -/
theorem onlyFinalizeDelivers : Obligations.OnlyFinalizeDelivers := by
  intro s t hstep
  cases hr : s.rst with
  | true =>
    obtain rfl : t = hardwareReset s := by simpa [step, hr] using hstep.symm
    exact .inl rfl
  | false =>
    rcases step_cases hstep hr with ⟨i, hd, hc⟩ | ⟨code, -, rfl⟩ | rfl
    · rcases hc.out_cases with same | ⟨ready, rfl, done, delivered⟩
      · exact .inl same
      · exact .inr ⟨ready, rfl, hd, done, delivered⟩
    · exact .inl rfl
    · exact .inl (endOfStream_out s)

/-! ## The answer of FINALIZE -/

theorem exec_finalize_of_ready {s : State} (ready : s.phase = .ready) :
    exec .finalize s = .next (finalizeEffect s) := by
  rw [exec, execFinalize, whenReady_of_ready ready]

theorem exec_finalize_of_done {s : State} (done : s.phase = .done) :
    exec .finalize s = .next (raise .usage s) := by
  rw [exec, execFinalize, whenReady_of_done done]

theorem finalizeEffect_out (s : State) : (finalizeEffect s).out = s.out ++ [serialize (finalizeEffect s).h] := by
  simp [finalizeEffect]

/-- Settles O31: the bytes of the serializer word by word; the port shows the chaining registers in DONE. -/
theorem digestBytesBigEndian : Obligations.DigestBytesBigEndian :=
  ⟨serialize_getElem, fun s ready =>
    ⟨_, exec_finalize_of_ready ready, finalizeEffect_out s, digestPort_of_done rfl⟩⟩

/-! ## The shape of the padding -/

theorem padZeros_cast (fill : Fin 64) : (padZeros fill : Int) = (55 - (fill.val : Int)) % 64 :=
  Int.toNat_of_nonneg (Int.emod_nonneg _ (by decide))

theorem padZeros_lt (fill : Fin 64) : padZeros fill < 64 := by
  have := padZeros_cast fill
  omega

/-- The marker, the zeros and the eight bytes of the length field (R151). -/
theorem pad_length (fill : Fin 64) (len : DWord) : (pad fill len).length = padZeros fill + 9 := by
  simp [pad]

/-- The bytes pending and their padding fill one block, or two when the length field no longer fits (R151, R153). -/
theorem fill_add_pad_length (fill : Fin 64) (len : DWord) :
    fill.val + (pad fill len).length = 64 * (if fill.val ≤ 55 then 1 else 2) := by
  have := padZeros_cast fill
  rw [pad_length]
  split <;> omega

/-- Settles O53: the padding by definition; its length fills up one block or two. -/
theorem padShape : Obligations.PadShape := by
  intro fill len
  have total := fill_add_pad_length fill len
  refine ⟨padZeros fill, rfl, padZeros_cast fill, fun le => ?_, fun ge => ?_⟩
  · rw [if_pos le] at total
    omega
  · rw [if_neg (by omega)] at total
    omega

/-! ## The blocks of the padded bytes -/

/-- A sequence is its full blocks followed by its tail (R143). -/
theorem flatMap_fullBlocks_append_tailBytes (m : List Byte) :
    (fullBlocks m).flatMap Vector.toList ++ tailBytes m = m := by
  by_cases short : m.length < 64
  · rw [fullBlocks_of_length_lt short, tailBytes_of_length_lt short]
    rfl
  · have full : (m.take 64).length = 64 := List.length_take_of_le (Nat.not_lt.mp short)
    obtain ⟨b, hb⟩ := Option.ne_none_iff_exists'.mp (mt blockOf?_eq_none.mp (not_not_intro full))
    have hm : m = b.toList ++ m.drop 64 := by rw [blockOf?_eq_some.mp hb, List.take_append_drop]
    rw [hm, fullBlocks_toList_append, tailBytes_toList_append, List.flatMap_cons, List.append_assoc,
      flatMap_fullBlocks_append_tailBytes (m.drop 64)]
termination_by m.length
decreasing_by simp only [List.length_drop]; omega

/-- Nothing is left behind the last block of whole blocks. -/
theorem tailBytes_of_length_eq {m : List Byte} {n : Nat} (h : m.length = 64 * n) : tailBytes m = [] :=
  List.drop_eq_nil_of_le (by omega)

theorem flatMap_fullBlocks_of_length_eq {m : List Byte} {n : Nat} (h : m.length = 64 * n) :
    (fullBlocks m).flatMap Vector.toList = m := by
  simpa [tailBytes_of_length_eq h] using flatMap_fullBlocks_append_tailBytes m

theorem fullBlocks_length_of_length_eq {m : List Byte} {n : Nat} (h : m.length = 64 * n) :
    (fullBlocks m).length = n := by
  have joined := congrArg List.length (flatMap_fullBlocks_of_length_eq h)
  simp [List.length_flatMap] at joined
  omega

theorem buf_append_pad_length {s : State} (wf : Memory.wf s.buf s.fill = true) (len : DWord) :
    (s.buf ++ pad s.fill len).length = 64 * (if s.fill.val ≤ 55 then 1 else 2) := by
  rw [List.length_append, memory_wf_iff.mp wf, fill_add_pad_length]

/-- Settles O54: the bytes pending and their padding are one or two whole blocks, so the blocks are all there is. -/
theorem paddingFallsInOneOrTwoBlocks : Obligations.PaddingFallsInOneOrTwoBlocks := by
  intro s wf
  have len := buf_append_pad_length wf s.count
  exact ⟨fullBlocks_length_of_length_eq len, flatMap_fullBlocks_of_length_eq len, tailBytes_of_length_eq len⟩

/-! ## The effect of FINALIZE -/

/-- Settles O55: what absorbing leaves is known in closed form, DONE has an empty buffer, the rest is the frame. -/
theorem finalizePadsAndDelivers : Obligations.FinalizePadsAndDelivers := by
  refine fun s => ⟨fun ready wf => ?_, fun done => ⟨_, exec_finalize_of_done done, raised_raise _ s⟩⟩
  have hh : (finalizeEffect s).h = compressAll s.h (fullBlocks (s.buf ++ pad s.fill s.count)) :=
    (absorbAll_h_buf (pad s.fill s.count) wf).1
  obtain ⟨hfill, hbuf⟩ := (Completes.finalize ready).establishes_doneInv wf rfl
  refine ⟨_, exec_finalize_of_ready ready, hh, finalizeEffect_out s, rfl, ?_, hbuf, hfill, ?_⟩
  · simp [finalizeEffect]
  · simp [finalizeEffect, HostSame]

/-! ## A whole message -/

theorem execAll_append (is js : List Instr) (s : State) :
    execAll (is ++ js) s = (execAll is s).bind (execAll js) := by
  induction is generalizing s with
  | nil => rfl
  | cons i is ih =>
    rw [List.cons_append, execAll, execAll]
    cases exec i s with
    | next t => exact ih t
    | fault | refused => rfl

theorem execAll_concat {is : List Instr} {i : Instr} {s t u : State} (his : execAll is s = some t)
    (hi : exec i t = .next u) : execAll (is ++ [i]) s = some u := by
  rw [execAll_append, his, Option.bind_some, execAll, hi]
  rfl

section
variable {s : State} (init : Initial s)
include init

theorem ready_of_initial : s.phase = .ready := by
  obtain ⟨-, -, -, -, ready⟩ := init
  exact ready

theorem wf_of_initial : Memory.wf s.buf s.fill = true := by
  obtain ⟨-, -, hbuf, hfill, -⟩ := init
  rw [hbuf, hfill]
  rfl

/-- From the initial values the bytes absorbed determine the fill count (R15, R143). -/
theorem absorbAll_fill_of_initial (m : List Byte) : (absorbAll m s).fill = Fin.ofNat 64 m.length := by
  apply Fin.ext
  rw [absorbAll_fill m (wf_of_initial init)]
  obtain ⟨-, -, -, hfill, -⟩ := init
  simp [hfill]

/-- From the initial values the counter holds the message's length in bits, modulo `2^64` (R16, R141). -/
theorem addCount_count_of_initial (n : Nat) : (addCount n s).count = BitVec.ofNat 64 (8 * n) := by
  obtain ⟨-, hcount, -⟩ := init
  apply BitVec.eq_of_toNat_eq
  rw [addCount_toNat, hcount]
  simp

/-- From the initial values all the blocks of the bytes absorbed are compressed (R157). -/
theorem absorbAll_h_of_initial (m : List Byte) : (absorbAll m s).h = compressAll Chain.iv (fullBlocks m) := by
  have hh := (absorbAll_h_buf m (wf_of_initial init)).1
  obtain ⟨hiv, -, hbuf, -⟩ := init
  rw [hh, hiv, hbuf]
  rfl

end

/-- FINALIZE after a message `m` absorbed and counted from the initial values, `pos` having moved by `n`: the padding
follows `m` and is that of its length (R157). -/
theorem finalizeEffect_advance_addCount_absorbAll_h {s : State} (init : Initial s) (n : Nat) (m : List Byte) :
    (finalizeEffect (advance n (addCount m.length (absorbAll m s)))).h =
      compressAll Chain.iv (fullBlocks (m ++ pad (Fin.ofNat 64 m.length) (BitVec.ofNat 64 (8 * m.length)))) := by
  have hfill := absorbAll_fill_of_initial init m
  have hcount := addCount_count_of_initial init m.length
  rw [← absorbAll_h_of_initial init, absorbAll_append, ← hfill, ← hcount]
  simp [finalizeEffect, absorbAll_advance_addCount]

/-- Settles O57: the chunks absorb and count the message, so FINALIZE pads by the message's length and compresses the
blocks of the message and its padding from the initial values. -/
theorem messageDigestIsFoldOfCompress : Obligations.MessageDigestIsFoldOfCompress := by
  intro cs s init
  have ready := ready_of_initial init
  refine ⟨_, execAll_concat (execAll_map_updateBytes cs ready) (exec_finalize_of_ready (by simp [ready])), rfl, ?_⟩
  rw [finalizeEffect_out, finalizeEffect_advance_addCount_absorbAll_h init]
  simp

end Sys2Proof.Proofs
end

section
/-!
PROOFS. The padding and finalization state machine is FINALIZE (43_finalize.md R152; notes/assumptions/1.md).
-/
namespace Sys2Proof.Proofs

open Sys2Proof.Machine Sys2Proof.Laws

theorem padRun_add (m n : Nat) (x : PadMachine) : padRun (m + n) x = padRun n (padRun m x) := by
  induction m generalizing x with
  | zero => rw [Nat.zero_add, padRun]
  | succ m ih => rw [Nat.succ_add, padRun, padRun, ih]

/-- The machine stays where it has left. -/
theorem padRun_idle (n : Nat) (latch : DWord) (s : State) : padRun n ⟨.idle, latch, s⟩ = ⟨.idle, latch, s⟩ := by
  induction n with
  | zero => rfl
  | succ n ih => exact ih

theorem padStep_zero_of_fill_eq {s : State} (h : s.fill.val = 56) (latch : DWord) :
    padStep ⟨.zero, latch, s⟩ = ⟨.len 0, latch, s⟩ := by
  simp [padStep, h]

theorem padStep_zero_of_fill_ne {s : State} (h : s.fill.val ≠ 56) (latch : DWord) :
    padStep ⟨.zero, latch, s⟩ = ⟨.zero, latch, absorb 0x00#8 s⟩ := by
  simp [padStep, h]

/-- ZERO absorbs zero bytes until the fill count is 56, and leaves in one more micro-step. -/
theorem padRun_zero {n : Nat} (lt : n < 64) (latch : DWord) {s : State} (wf : Memory.wf s.buf s.fill = true)
    (h : (s.fill.val + n) % 64 = 56) :
    padRun (n + 1) ⟨.zero, latch, s⟩ = ⟨.len 0, latch, absorbAll (List.replicate n 0x00#8) s⟩ := by
  induction n generalizing s with
  | zero => exact padStep_zero_of_fill_eq (by omega) latch
  | succ n ih =>
    have next : ((absorb 0x00#8 s).fill.val + n) % 64 = 56 := by rw [absorb_fill _ wf]; omega
    rw [padRun, padStep_zero_of_fill_ne (by omega), ih (by omega) (absorb_wf _ wf) next, List.replicate_succ,
      absorbAll_cons]

/-- LEN(0) to LEN(7) absorb the latch as eight bytes, most significant first. -/
theorem padRun_len (latch : DWord) (s : State) :
    padRun 8 ⟨.len 0, latch, s⟩ = ⟨.last, latch, absorbAll (bytes64 latch) s⟩ := by
  simp [padRun, padStep, lenByte, bytes64]

/-- From MARK to END the machine absorbs the padding, in two micro-steps more than the padding has bytes (R152). -/
theorem padRun_padEntry {s : State} (wf : Memory.wf s.buf s.fill = true) :
    padRun (1 + (padZeros s.fill + 1) + 8 + 1) (padEntry s) = ⟨.idle, s.count, finalizeEffect s⟩ := by
  have few := padZeros_lt s.fill
  have marked : ((absorb 0x80#8 s).fill.val + padZeros s.fill) % 64 = 56 := by
    rw [absorb_fill _ wf, ← fill_add_padZeros_mod s.fill]
    omega
  calc padRun (1 + (padZeros s.fill + 1) + 8 + 1) (padEntry s)
      = padStep (padRun 8 (padRun (padZeros s.fill + 1) ⟨.zero, s.count, absorb 0x80#8 s⟩)) := by
        rw [padRun_add, padRun_add, padRun_add]
        rfl
    _ = padStep (padRun 8 ⟨.len 0, s.count, absorbAll (List.replicate (padZeros s.fill) 0x00#8) (absorb 0x80#8 s)⟩) :=
        by rw [padRun_zero few _ (absorb_wf _ wf) marked]
    _ = ⟨.idle, s.count, finalizeEffect s⟩ := by
        rw [padRun_len, ← absorbAll_append, ← absorbAll_cons, finalizeEffect, pad]
        rfl

/-- Settles O56: the machine leaves after at most 74 micro-steps, and its composite is the effect of FINALIZE. -/
theorem paddingMachineIsFinalize : Obligations.PaddingMachineIsFinalize := by
  intro s ready wf
  have few := padZeros_lt s.fill
  have steps : 74 = 1 + (padZeros s.fill + 1) + 8 + 1 + (63 - padZeros s.fill) := by omega
  have final : padRun 74 (padEntry s) = ⟨.idle, s.count, finalizeEffect s⟩ := by
    rw [steps, padRun_add, padRun_padEntry wf, padRun_idle]
  rw [final]
  exact ⟨rfl, exec_finalize_of_ready ready⟩

end Sys2Proof.Proofs
end

section
/-!
PROOFS. RESET re-initializes the block, and nothing from before it reaches what comes after (44_reset_and_pseudo.md R165,
R166).
-/
namespace Sys2Proof.Proofs

open Sys2Proof.Machine Sys2Proof.Laws Sys2Proof.Claims

/-! ## The command -/

/-- In FAULT no command is executed (R185). -/
theorem alive_of_exec_next {i : Instr} {s t : State} (h : exec i s = .next t) : s.phase ≠ .fault := by
  rcases exec_next h with ⟨ready, -⟩ | ⟨done, -⟩ | ⟨done, -⟩
  · simp [ready]
  · simp [done]
  · simp [done]

/-- Settles O4: the effect is the initial values and one byte consumed, so a second RESET consumes a byte and no more. -/
theorem resetCommandReinitializes : Obligations.ResetCommandReinitializes :=
  ⟨fun s alive => ⟨resetEffect s, exec_reset_of_alive alive, initial_initValues s, rfl, rfl, ⟨rfl, rfl, rfl⟩, rfl, rfl,
    rfl, exec_reset_of_alive (s := resetEffect s) nofun⟩,
    fun _ _ fault h => alive_of_exec_next h fault⟩

/-- In DONE every command but RESET is a usage error (R181). -/
theorem exec_of_done {i : Instr} {s : State} (done : s.phase = .done) (hi : i ≠ .reset) :
    exec i s = .next (raise .usage s) := by
  cases i with
  | block b => exact exec_block_of_done done b
  | update len d => exact exec_update_of_done done len d
  | finalize => exact exec_finalize_of_done done
  | reset => exact absurd rfl hi

theorem stepN_succ_eq_some {n : Nat} {s u : State} :
    stepN (n + 1) s = some u ↔ ∃ t, step s = .next t ∧ stepN n t = some u := by
  rw [stepN]
  cases step s <;> simp

/-! ## States a host cannot tell apart -/

/-- The data registers hold the same values. -/
structure SameData (s₁ s₂ : State) : Prop where
  h : s₂.h = s₁.h
  count : s₂.count = s₁.count
  buf : s₂.buf = s₁.buf
  fill : s₂.fill = s₁.fill

/-- The two states differ in what was delivered before, `o₁` in the one and `o₂` in the other, in the index of the next
free value, and in FAULT in the data registers, which are unspecified there (R184). -/
structure Alike (o₁ o₂ : List Digest) (s₁ s₂ : State) : Prop where
  host : HostSame s₁ s₂
  pos : s₂.pos = s₁.pos
  faultCode : s₂.faultCode = s₁.faultCode
  phase : s₂.phase = s₁.phase
  out : ∃ ds, s₁.out = o₁ ++ ds ∧ s₂.out = o₂ ++ ds
  data : s₁.phase ≠ .fault → SameData s₁ s₂

namespace Alike

variable {o₁ o₂ : List Digest} {s₁ s₂ t₁ : State}

/-! ### Every operation keeps states alike -/

theorem advance (h : Alike o₁ o₂ s₁ s₂) (n : Nat) : Alike o₁ o₂ (advance n s₁) (advance n s₂) :=
  { h with
    pos := congrArg (· + n) h.pos
    data := fun alive => { h.data alive with } }

theorem addCount (h : Alike o₁ o₂ s₁ s₂) (n : Nat) : Alike o₁ o₂ (addCount n s₁) (addCount n s₂) :=
  { h with
    data := fun alive => { h.data alive with count := congrArg (add64 · _) (h.data alive).count } }

theorem absorb (h : Alike o₁ o₂ s₁ s₂) (alive : s₁.phase ≠ .fault) (x : Byte) :
    Alike o₁ o₂ (absorb x s₁) (absorb x s₂) := by
  have same := h.data alive
  unfold Machine.absorb
  rw [same.buf]
  split
  · next b _ =>
    exact { h with data := fun _ => { same with h := congrArg (compress · b) same.h, buf := rfl, fill := rfl } }
  · exact { h with data := fun _ => { same with buf := rfl, fill := congrArg (· + 1) same.fill } }

theorem absorbAll (h : Alike o₁ o₂ s₁ s₂) (alive : s₁.phase ≠ .fault) (xs : List Byte) :
    Alike o₁ o₂ (absorbAll xs s₁) (absorbAll xs s₂) := by
  induction xs generalizing s₁ s₂ with
  | nil => exact h
  | cons x xs ih => exact ih (h.absorb alive x) (by rwa [absorb_phase])

theorem deliver (h : Alike o₁ o₂ s₁ s₂) (alive : s₁.phase ≠ .fault) : Alike o₁ o₂ (deliver s₁) (deliver s₂) := by
  have same := h.data alive
  obtain ⟨ds, out₁, out₂⟩ := h.out
  refine { h with phase := rfl, out := ⟨ds ++ [serialize s₁.h], ?_, ?_⟩, data := fun _ => { same with } }
  · rw [deliver_out, out₁, List.append_assoc]
  · rw [deliver_out, out₂, same.h, List.append_assoc]

theorem initValues (h : Alike o₁ o₂ s₁ s₂) : Alike o₁ o₂ (initValues s₁) (initValues s₂) :=
  { h with phase := rfl, data := fun _ => ⟨rfl, rfl, rfl, rfl⟩ }

theorem raise (h : Alike o₁ o₂ s₁ s₂) (code : FaultCode) : Alike o₁ o₂ (raise code s₁) (raise code s₂) :=
  { h with faultCode := rfl, phase := rfl, data := fun alive => absurd rfl alive }

theorem hardwareReset (h : Alike o₁ o₂ s₁ s₂) : Alike o₁ o₂ (hardwareReset s₁) (hardwareReset s₂) :=
  have ⟨_, pending, _⟩ := h.host
  { h.initValues with
    host := ⟨rfl, pending, rfl⟩
    pos := rfl
    faultCode := rfl
    data := fun _ => ⟨rfl, rfl, rfl, rfl⟩ }

theorem endOfStream (h : Alike o₁ o₂ s₁ s₂) : Alike o₁ o₂ (endOfStream s₁) (endOfStream s₂) := by
  obtain ⟨-, pending, rst⟩ := h.host
  unfold Machine.endOfStream
  rw [pending]
  split
  · exact h
  · exact { h with host := ⟨rfl, rfl, rst⟩, pos := rfl, data := fun alive => { h.data alive with } }

theorem blockEffect (h : Alike o₁ o₂ s₁ s₂) (alive : s₁.phase ≠ .fault) (b : Block) :
    Alike o₁ o₂ (blockEffect b s₁) (blockEffect b s₂) :=
  { h with
    pos := congrArg (· + 65) h.pos
    data := fun _ => { h.data alive with h := congrArg (compress · b) (h.data alive).h } }

/-! ### Every command and every step keeps states alike -/

theorem fetch_eq (h : Alike o₁ o₂ s₁ s₂) : fetch s₂ = fetch s₁ := by
  obtain ⟨stream, -, -⟩ := h.host
  rw [fetch, fetch, stream, h.pos]

theorem ran {i : Instr} (h : Alike o₁ o₂ s₁ s₂) (ready : s₁.phase = .ready) (ran : Ran i s₁ t₁) :
    ∃ t₂, exec i s₂ = .next t₂ ∧ Alike o₁ o₂ t₁ t₂ := by
  have ready₂ : s₂.phase = .ready := h.phase.trans ready
  have alive : s₁.phase ≠ .fault := by simp [ready]
  cases ran with
  | block b =>
    exact ⟨_, exec_block_of_ready ready₂ b, h.blockEffect alive b⟩
  | update len d _ lo hi =>
    exact ⟨_, exec_update_of_ready ready₂ lo hi, ((h.absorbAll alive _).addCount _).advance _⟩
  | badLength len d _ bad => exact ⟨_, exec_update_of_badLength ready₂ bad, h.raise .length⟩
  | finalize =>
    have padding : pad s₂.fill s₂.count = pad s₁.fill s₁.count := by rw [(h.data alive).fill, (h.data alive).count]
    refine ⟨_, exec_finalize_of_ready ready₂, ?_⟩
    rw [finalizeEffect, finalizeEffect, padding]
    exact ((h.absorbAll alive _).deliver (by rwa [absorbAll_phase])).advance 1
  | reset => exact ⟨_, exec_reset_of_alive (by simp [ready₂]), h.initValues.advance 1⟩

theorem exec {i : Instr} (h : Alike o₁ o₂ s₁ s₂) (he : exec i s₁ = .next t₁) :
    ∃ t₂, exec i s₂ = .next t₂ ∧ Alike o₁ o₂ t₁ t₂ := by
  rcases exec_next he with ⟨ready, ran⟩ | ⟨done, rfl, rfl⟩ | ⟨done, ne, rfl⟩
  · exact h.ran ready ran
  · have done₂ : s₂.phase = .done := h.phase.trans done
    exact ⟨_, exec_reset_of_alive (by simp [done₂]), h.initValues.advance 1⟩
  · exact ⟨_, exec_of_done (h.phase.trans done) ne, h.raise .usage⟩

/-- Hardware reset, a command, a fault or the end of the stream: it is the same event in both. -/
theorem step (h : Alike o₁ o₂ s₁ s₂) (hstep : step s₁ = .next t₁) :
    ∃ t₂, step s₂ = .next t₂ ∧ Alike o₁ o₂ t₁ t₂ := by
  obtain ⟨-, -, rst⟩ := h.host
  rcases step_next hstep with ⟨asserted, rfl⟩ | ⟨low, alive, event⟩
  · exact ⟨_, by rw [Machine.step, if_pos (rst.trans asserted)], h.hardwareReset⟩
  · have low₂ : s₂.rst = false := rst.trans low
    have alive₂ : s₂.phase ≠ .fault := by rwa [h.phase]
    rw [← h.fetch_eq] at event
    rcases event with ⟨i, hd, he⟩ | ⟨hd, rfl⟩ | ⟨x, hd, rfl⟩ | ⟨op, hd, rfl⟩
    · rw [step_of_ok low₂ alive₂ hd]
      exact h.exec he
    · exact ⟨_, step_of_empty low₂ alive₂ hd, h.endOfStream⟩
    · exact ⟨_, step_of_illegal low₂ alive₂ hd, h.raise .illegal⟩
    · exact ⟨_, step_of_short low₂ alive₂ hd, by rw [h.phase]; exact h.raise _⟩

theorem stepN {n : Nat} {u₁ : State} (h : Alike o₁ o₂ s₁ s₂) (hn : stepN n s₁ = some u₁) :
    ∃ u₂, stepN n s₂ = some u₂ ∧ Alike o₁ o₂ u₁ u₂ := by
  induction n generalizing s₁ s₂ with
  | zero =>
    cases hn
    exact ⟨s₂, rfl, h⟩
  | succ n ih =>
    obtain ⟨t₁, hstep, hrest⟩ := stepN_succ_eq_some.mp hn
    obtain ⟨t₂, hstep₂, alike⟩ := h.step hstep
    obtain ⟨u₂, hrest₂, alike'⟩ := ih alike hrest
    exact ⟨u₂, stepN_succ_eq_some.mpr ⟨t₂, hstep₂, hrest₂⟩, alike'⟩

end Alike

/-- RESET overwrites every data register, so the states it leaves differ in their past only (R166). -/
theorem alike_resetEffect {s₁ s₂ : State} (faultCode : s₁.faultCode = s₂.faultCode) (pos : s₁.pos = s₂.pos)
    (host : HostSame s₁ s₂) : Alike s₁.out s₂.out (resetEffect s₁) (resetEffect s₂) where
  host := host
  pos := congrArg (· + 1) pos.symm
  faultCode := faultCode.symm
  phase := rfl
  out := ⟨[], (List.append_nil _).symm, (List.append_nil _).symm⟩
  data := fun _ => ⟨rfl, rfl, rfl, rfl⟩

/-- Settles O5, by induction on the steps: RESET leaves the two states alike, and every step keeps them so. -/
theorem noResidueAcrossReset : Obligations.NoResidueAcrossReset := by
  intro s₁ s₂ t₁ t₂ u₁ n alive₁ alive₂ faultCode pos host hreset₁ hreset₂ hn
  rw [exec_reset_of_alive alive₁, Host.Outcome.next.injEq] at hreset₁
  rw [exec_reset_of_alive alive₂, Host.Outcome.next.injEq] at hreset₂
  subst hreset₁ hreset₂
  obtain ⟨u₂, hn₂, alike⟩ := (alike_resetEffect faultCode pos host).stepN hn
  obtain ⟨ds, out₁, out₂⟩ := alike.out
  refine ⟨u₂, ds, hn₂, out₁, out₂, alike.phase, alike.faultCode, alike.pos, alike.host, fun alive => ?_⟩
  obtain ⟨hh, hcount, hbuf, hfill⟩ := alike.data alive
  exact ⟨hh, hcount, hbuf, hfill⟩

end Sys2Proof.Proofs
end

section
/-!
PROOFS. The facade's pseudo-commands expand to the bytes of their commands (44_reset_and_pseudo.md R170 to R172).
-/
namespace Sys2Proof.Proofs

open Sys2Proof.Machine

/-- The number of bytes given, as the length field (R73, R79). -/
theorem encode_updateBytes (d : List Byte) :
    encode (.updateBytes d) = 0x02#8 :: (bytes32 (BitVec.ofNat 32 d.length) ++ d) := by
  rw [Instr.updateBytes, encode, operandBytes, opcodeByte, BitVec.ofInt_natCast]

/-- Fewer than `2^31` bytes can be counted in the length field (R73). -/
theorem updateBytes_wf {d : List Byte} (h : d.length < 2 ^ 31) : (Instr.updateBytes d).wf = true :=
  lenOk_iff.mpr (by omega)

theorem assemble_singleton (i : Instr) : assemble [i] = encode i := List.append_nil _

/-- Settles O58: every expansion is RESET's byte or none, then the encoding of UPDATE, which decodes to it. -/
theorem pseudoCommandExpansions : Obligations.PseudoCommandExpansions := by
  refine ⟨fun d h => ?_, rfl, rfl⟩
  have fresh : assemble [.updateBytes d] = 0x02#8 :: (bytes32 (BitVec.ofNat 32 d.length) ++ d) := by
    rw [assemble_singleton, encode_updateBytes]
  refine ⟨congrArg (0x04#8 :: ·) fresh, fresh, fun _ => ⟨fresh, ?_⟩⟩
  change decode (assemble [.updateBytes d]) = .ok (.updateBytes d)
  rw [assemble_singleton, ← List.append_nil (encode _), decode_encode_append (updateBytes_wf h), withRest_nil]

end Sys2Proof.Proofs
end

section
/-!
PROOFS. Faults: which one a step raises and in what order, what it leaves, and that only hardware reset leaves it
(60_exceptions.md R180 to R196).
-/
namespace Sys2Proof.Proofs

open Sys2Proof.Machine Sys2Proof.Laws Sys2Proof.Claims Sys2Proof.Laws.OpcodeRow

/-- Settles O23: the guards of the phase let every command answer outside FAULT. -/
theorem everyCommandAnswers : Obligations.EveryCommandAnswers := fun i _ alive => exec_answers i alive

/-- Settles O24: the fields `raise` writes and those it keeps. -/
theorem raiseEntersFault : Obligations.RaiseEntersFault :=
  fun code s => ⟨raised_raise code s, runStops_raise code s, rfl, rfl⟩

theorem faultCode_of_raised {code : FaultCode} {s t : State} (h : Raised code s t) : t.faultCode = code := by
  obtain ⟨-, hcode, -⟩ := h
  exact hcode

/-! ## Phase FAULT -/

/-- In FAULT the guard of every command is stuck, RESET's too (R185). -/
theorem exec_of_fault {s : State} (fault : s.phase = .fault) (i : Instr) : exec i s = .fault (.sticky s.faultCode) := by
  cases i with
  | block b => rw [exec, execBlock, whenReady_of_fault fault, stuck]
  | update len d => rw [exec, execUpdate, whenReady_of_fault fault, stuck]
  | finalize => rw [exec, execFinalize, whenReady_of_fault fault, stuck]
  | reset =>
    rcases whenAlive_cases (fun t => .next (resetEffect t)) s with ⟨alive, -⟩ | ⟨-, e⟩
    · exact absurd fault alive
    · exact e

theorem step_of_rst {s : State} (hr : s.rst = true) : step s = .next (hardwareReset s) := if_pos hr

theorem step_of_fault {s : State} (hr : s.rst = false) (fault : s.phase = .fault) :
    step s = .fault (.sticky s.faultCode) := by
  rw [step, if_neg (by simp [hr]), if_pos fault, stuck]

/-- A step without `rst` that answers a next state starts outside FAULT (R185). -/
theorem alive_of_step_next {s t : State} (hr : s.rst = false) (hstep : step s = .next t) : s.phase ≠ .fault := by
  intro fault
  rw [step_of_fault hr fault] at hstep
  cases hstep

/-- Settles O28: the commands and the step are stuck, and `c_ready` is the negation of the fault output. -/
theorem faultIsSticky : Obligations.FaultIsSticky :=
  fun _ fault => ⟨exec_of_fault fault, fun hr => step_of_fault hr fault, by simp [cReady, faultOut, fault]⟩

/-- Settles O29: without `rst` the step is stuck, with `rst` it is hardware reset. -/
theorem onlyHardwareResetLeavesFault : Obligations.OnlyHardwareResetLeavesFault := by
  refine fun s fault => ⟨fun t hstep => ?_, fun _ _ h => alive_of_exec_next h fault, fun hr => ⟨_, step_of_rst hr⟩⟩
  cases hr : s.rst with
  | true =>
    rw [step_of_rst hr, Host.Outcome.next.injEq] at hstep
    subst hstep
    exact ⟨rfl, initial_initValues s, rfl⟩
  | false => exact absurd fault (alive_of_step_next hr hstep)

/-! ## What a legal opcode byte decodes to -/

theorem decodeOp_eq_some_of_legal {x : Byte} (legal : ¬(x ≠ 0x01#8 ∧ x ≠ 0x02#8 ∧ x ≠ 0x03#8 ∧ x ≠ 0x04#8)) :
    ∃ op, decodeOp x = some op :=
  Option.ne_none_iff_exists'.mp (mt decodeOp_eq_none_iff.mp legal)

/-- The opcode byte fixes the command, or which command's operands are short (R77). -/
theorem decode_of_op {x : Byte} {op : Op} (hop : decodeOp x = some op) (rest : List Byte) :
    (∃ i, decode (x :: rest) = .ok i ∧ rowOf i = op) ∨ decode (x :: rest) = .short op := by
  have hd : decode (x :: rest) = decodeOperands op rest := by rw [decode, hop]
  rw [hd]
  cases op with
  | block =>
    rw [decodeOperands, decodeBlock]
    split
    · exact .inl ⟨_, rfl, rfl⟩
    · exact .inr rfl
  | update =>
    rw [decodeOperands]
    unfold decodeUpdate
    split
    · exact .inl ⟨_, rfl, rfl⟩
    · exact .inr rfl
  | finalize => exact .inl ⟨_, rfl, rfl⟩
  | reset => exact .inl ⟨_, rfl, rfl⟩

/-! ## The length rules -/

/-- Only BLOCK and UPDATE have operands that a length rule is about (R182). -/
theorem opcode_of_lengthBad {x : Byte} {rest : List Byte} (bad : lengthBad x rest = true) :
    x = 0x01#8 ∨ x = 0x02#8 := by
  by_contra other
  obtain ⟨h1, h2⟩ := not_or.mp other
  simp [lengthBad, h1, h2] at bad

theorem lengthBad_block {rest : List Byte} : lengthBad 0x01#8 rest = true ↔ rest.length < 64 := decide_eq_true_iff

theorem lengthBad_update_of_short {rest : List Byte} (h : rest.length < 4) : lengthBad 0x02#8 rest = true := by
  match rest, h with
  | [], _ | [_], _ | [_, _], _ | [_, _, _], _ => rfl

theorem lengthBad_update {b0 b1 b2 b3 : Byte} {d : List Byte} :
    lengthBad 0x02#8 (b0 :: b1 :: b2 :: b3 :: d) = true ↔
      2 ^ 31 ≤ rawLen b0 b1 b2 b3 ∨ d.length < rawLen b0 b1 b2 b3 := by
  simp [lengthBad]

/-- The rules on the raw field are UPDATE's own tests on the signed one (R141, R182): a raw value of `2^31` or more reads
as negative. -/
theorem sextLen_be32_bad_iff {b0 b1 b2 b3 : Byte} {n : Nat} :
    sextLen (be32 b0 b1 b2 b3) < 0 ∨ (n : Int) < sextLen (be32 b0 b1 b2 b3) ↔
      2 ^ 31 ≤ rawLen b0 b1 b2 b3 ∨ n < rawLen b0 b1 b2 b3 := by
  have raw : (be32 b0 b1 b2 b3).toNat = rawLen b0 b1 b2 b3 := be32_toNat b0 b1 b2 b3
  have bound := (be32 b0 b1 b2 b3).isLt
  rw [sextLen]
  rw [raw] at bound ⊢
  split_ifs <;> omega

/-- With four bytes or more behind it, the operands of UPDATE are a length field and `D` (R71). -/
theorem exists_lengthField {rest : List Byte} (h : 4 ≤ rest.length) :
    ∃ b0 b1 b2 b3 d, rest = b0 :: b1 :: b2 :: b3 :: d := by
  match rest, h with
  | b0 :: b1 :: b2 :: b3 :: d, _ => exact ⟨b0, b1, b2, b3, d, rfl⟩

/-- Outside FAULT, what R181 does not forbid is a RESET or a command in READY. -/
theorem usable_of_not_usage {s : State} {x : Byte} (alive : s.phase ≠ .fault)
    (usage : ¬(x ≠ 0x04#8 ∧ s.phase = .done)) : x = 0x04#8 ∨ s.phase = .ready := by
  cases hp : s.phase with
  | ready => exact .inr rfl
  | done => exact .inl (not_not.mp fun hx => usage ⟨hx, hp⟩)
  | fault => exact absurd hp alive

/-! ## The step, by the opcode byte, the phase and the length rules -/

section
variable {s : State} {x : Byte} {rest : List Byte} (hr : s.rst = false) (hf : fetch s = x :: rest)
include hr hf

theorem step_of_illegalOpcode (alive : s.phase ≠ .fault) (hop : decodeOp x = none) :
    step s = .next (raise .illegal s) :=
  step_of_illegal hr alive (hf ▸ decode_illegal rest hop)

/-- In DONE the opcode byte alone decides: operands that decode and operands that are short raise the same fault (R181,
R193). -/
theorem step_of_done (done : s.phase = .done) {op : Op} (hop : decodeOp x = some op) (ne : op ≠ .reset) :
    step s = .next (raise .usage s) := by
  have alive : s.phase ≠ .fault := by simp [done]
  rcases decode_of_op hop rest with ⟨i, hd, rfl⟩ | hd
  · have hi : i ≠ .reset := by rintro rfl; exact ne rfl
    rw [step_of_ok hr alive (hf ▸ hd), exec_of_done done hi]
  · rw [step_of_short hr alive (hf ▸ hd), done, shortFault]

theorem step_of_short_of_ready (ready : s.phase = .ready) {op : Op} (hd : decode (x :: rest) = .short op) :
    step s = .next (raise .length s) := by
  rw [step_of_short hr (by simp [ready]) (hf ▸ hd), ready]
  rfl

/-- In READY a broken length rule is a short operand or an UPDATE that its own tests reject (R182). -/
theorem step_of_lengthBad (ready : s.phase = .ready) (bad : lengthBad x rest = true) :
    step s = .next (raise .length s) := by
  rcases opcode_of_lengthBad bad with rfl | rfl
  · exact step_of_short_of_ready hr hf ready (decode_block_of_short (lengthBad_block.mp bad))
  · by_cases short : rest.length < 4
    · exact step_of_short_of_ready hr hf ready (decode_update_of_short short)
    · obtain ⟨b0, b1, b2, b3, d, rfl⟩ := exists_lengthField (Nat.le_of_not_lt short)
      rw [step_of_ok hr (by simp [ready]) (hf ▸ decode_update b0 b1 b2 b3 d)]
      exact exec_update_of_badLength ready (sextLen_be32_bad_iff.mpr (lengthBad_update.mp bad))

/-- A legal opcode byte, a phase in which its command may be used and no broken length rule: the command completes
(R189, R196). -/
theorem step_completes (alive : s.phase ≠ .fault) (usable : x = 0x04#8 ∨ s.phase = .ready) {op : Op}
    (hop : decodeOp x = some op) (good : lengthBad x rest ≠ true) : ∃ i t, step s = .next t ∧ Completes i s t := by
  have ready (hx : x ≠ 0x04#8) : s.phase = .ready := usable.resolve_left hx
  rcases decodeOp_eq_some hop with ⟨rfl, -⟩ | ⟨rfl, -⟩ | ⟨rfl, -⟩ | ⟨rfl, -⟩
  · have long : 64 ≤ rest.length := Nat.le_of_not_lt (mt lengthBad_block.mpr good)
    obtain ⟨b, hb⟩ := exists_block_toList (l := rest.take 64) (by simpa using long)
    have hd : decode (fetch s) = .ok (.block b) := by
      rw [hf, ← List.take_append_drop 64 rest, ← hb]
      exact decode_block b _
    refine ⟨.block b, _, ?_, .block b (ready (by decide))⟩
    rw [step_of_ok hr alive hd, exec_block_of_ready (ready (by decide))]
  · have long : 4 ≤ rest.length := Nat.le_of_not_lt (mt lengthBad_update_of_short good)
    obtain ⟨b0, b1, b2, b3, d, rfl⟩ := exists_lengthField long
    obtain ⟨lo, hi⟩ := not_or.mp (mt sextLen_be32_bad_iff.mp (mt lengthBad_update.mpr good))
    refine ⟨_, _, ?_, .update _ d (ready (by decide)) (Int.not_lt.mp lo) (Int.not_lt.mp hi)⟩
    rw [step_of_ok hr alive (hf ▸ decode_update b0 b1 b2 b3 d),
      exec_update_of_ready (ready (by decide)) (Int.not_lt.mp lo) (Int.not_lt.mp hi)]
  · refine ⟨.finalize, _, ?_, .finalize (ready (by decide))⟩
    rw [step_of_ok hr alive (hf ▸ decode_finalize rest), exec_finalize_of_ready (ready (by decide))]
  · refine ⟨.reset, _, ?_, .reset alive⟩
    rw [step_of_ok hr alive (hf ▸ decode_reset rest), exec_reset_of_alive alive]

end

/-- Settles O27: no command decodes from the byte. -/
theorem illegalOpcodeFaults : Obligations.IllegalOpcodeFaults := by
  intro s x rest hr phase hf h1 h2 h3 h4
  have alive : s.phase ≠ .fault := by rcases phase with p | p <;> simp [p]
  exact ⟨_, step_of_illegalOpcode hr hf alive (decodeOp_eq_none_iff.mpr ⟨h1, h2, h3, h4⟩), raised_raise _ s⟩

/-- Settles O25: the three opcode bytes by the rule for DONE; RESET is a command that DONE accepts. -/
theorem usageFaultInDone : Obligations.UsageFaultInDone := by
  intro s x rest hr done hf
  constructor
  · intro hx
    have usage {op : Op} (hop : decodeOp x = some op) (ne : op ≠ .reset) : ∃ t, step s = .next t ∧ Raised .usage s t :=
      ⟨_, step_of_done hr hf done hop ne, raised_raise _ s⟩
    rcases hx with rfl | rfl | rfl
    · exact usage (op := .block) rfl nofun
    · exact usage (op := .update) rfl nofun
    · exact usage (op := .finalize) rfl nofun
  · rintro rfl
    have alive : s.phase ≠ .fault := by simp [done]
    refine ⟨resetEffect s, ?_, rfl, rfl⟩
    rw [step_of_ok hr alive (hf ▸ decode_reset rest), exec_reset_of_alive alive]

/-- Settles O26: each of the four is a broken length rule. -/
theorem lengthFaultsInReady : Obligations.LengthFaultsInReady := by
  intro s hr ready
  have raises {x : Byte} {rest : List Byte} (hf : fetch s = x :: rest) (bad : lengthBad x rest = true) :
      ∃ t, step s = .next t ∧ Raised .length s t := ⟨_, step_of_lengthBad hr hf ready bad, raised_raise _ s⟩
  exact ⟨fun _ _ _ _ _ hf bad => raises hf (lengthBad_update.mpr bad),
    fun _ hf short => raises hf (lengthBad_update_of_short short), fun _ hf short => raises hf (lengthBad_block.mpr short)⟩

/-- Settles O16: the three rules for a fault in their order, and the command that completes when none applies. -/
theorem faultPriorityOfStep : Obligations.FaultPriorityOfStep := by
  intro s x rest hr alive hf
  split_ifs with illegal usage bad
  · exact ⟨_, step_of_illegalOpcode hr hf alive (decodeOp_eq_none_iff.mpr illegal), raised_raise _ s⟩
  · obtain ⟨op, hop⟩ := decodeOp_eq_some_of_legal illegal
    obtain ⟨notReset, done⟩ := usage
    have ne : op ≠ .reset := by
      rintro rfl
      exact notReset (by simpa using decodeOp_eq_some_iff.mp hop)
    exact ⟨_, step_of_done hr hf done hop ne, raised_raise _ s⟩
  · have ready : s.phase = .ready := (usable_of_not_usage alive usage).resolve_left (by rintro rfl; cases bad)
    exact ⟨_, step_of_lengthBad hr hf ready bad, raised_raise _ s⟩
  · obtain ⟨op, hop⟩ := decodeOp_eq_some_of_legal illegal
    obtain ⟨i, t, hstep, hc⟩ := step_completes hr hf alive (usable_of_not_usage alive usage) hop bad
    refine ⟨t, hstep, hc.phase_ne_fault, hc.faultCode_eq, ?_⟩
    rw [hc.pos_eq]
    exact Nat.lt_add_of_pos_right (encodedLength_pos i)

/-! ## What changes the phase -/

/-- Which phase a command that completes leaves (R125, R141, R150, R165, R196). -/
theorem Completes.phase_cases {i : Instr} {s t : State} (h : Completes i s t) :
    (s.phase = .ready ∧ t.phase = .ready) ∨ (s.phase = .ready ∧ i = .finalize ∧ t.phase = .done) ∨
      (i = .reset ∧ t.phase = .ready) := by
  cases h with
  | block b ready => exact .inl ⟨ready, by simp [blockEffect, ready]⟩
  | update len d ready => exact .inl ⟨ready, by simp [updateEffect, ready]⟩
  | finalize ready => exact .inr (.inl ⟨ready, rfl, rfl⟩)
  | reset => exact .inr (.inr ⟨rfl, rfl⟩)

/-- Every change of the phase by a step without `rst` (R196). -/
theorem phase_cases_of_step {s t : State} (hr : s.rst = false) (hstep : step s = .next t) :
    t.phase = s.phase ∨ (s.phase = .ready ∧ decode (fetch s) = .ok .finalize ∧ t.phase = .done) ∨
      (decode (fetch s) = .ok .reset ∧ t.phase = .ready) ∨ t.phase = .fault := by
  rcases step_cases hstep hr with ⟨i, hd, hc⟩ | ⟨code, -, rfl⟩ | rfl
  · rcases hc.phase_cases with ⟨ready, stays⟩ | ⟨ready, rfl, done⟩ | ⟨rfl, ready⟩
    · exact .inl (stays.trans ready.symm)
    · exact .inr (.inl ⟨ready, hd, done⟩)
    · exact .inr (.inr (.inl ⟨hd, ready⟩))
  · exact .inr (.inr (.inr rfl))
  · exact .inl (endOfStream_phase s)

/-- A step into FAULT took one of the three rules for a fault, at a byte of the stream (R180 to R183, R193). -/
theorem faultCause_of_step {s t : State} (hr : s.rst = false) (hstep : step s = .next t) (fault : t.phase = .fault) :
    ∃ x rest, fetch s = x :: rest ∧ faultCause s.phase x rest t.faultCode := by
  have alive := alive_of_step_next hr hstep
  cases hf : fetch s with
  | nil =>
    rw [step_of_empty hr alive (by rw [hf]; rfl), Host.Outcome.next.injEq] at hstep
    subst hstep
    exact absurd fault (by rwa [endOfStream_phase])
  | cons x rest =>
    obtain ⟨t', hstep', which⟩ := faultPriorityOfStep s x rest hr alive hf
    obtain rfl : t' = t := by rwa [hstep', Host.Outcome.next.injEq] at hstep
    refine ⟨x, rest, rfl, ?_⟩
    split_ifs at which with illegal usage bad
    · rw [faultCode_of_raised which]
      exact illegal
    · obtain ⟨notReset, done⟩ := usage
      rw [faultCode_of_raised which]
      exact ⟨done, by tauto⟩
    · rw [faultCode_of_raised which]
      exact ⟨(usable_of_not_usage alive usage).resolve_left (by rintro rfl; cases bad), bad⟩
    · obtain ⟨notFault, -⟩ := which
      exact absurd fault notFault

/-- Settles O20: hardware reset enters READY; without it the change of the phase is one of the cases above. -/
theorem phaseChangesOnlyAsTabulated : Obligations.PhaseChangesOnlyAsTabulated := by
  intro s t hstep
  cases hr : s.rst with
  | true =>
    rw [step_of_rst hr, Host.Outcome.next.injEq] at hstep
    subst hstep
    simp
  | false =>
    have alive := alive_of_step_next hr hstep
    refine ⟨fun ht hs => ?_, fun ht hs => ?_, fun _ hs => absurd hs alive,
      fun ht => ⟨alive, rfl, faultCause_of_step hr hstep ht⟩⟩
    · rcases phase_cases_of_step hr hstep with same | ⟨ready, hd, -⟩ | ⟨-, ready⟩ | fault
      · exact absurd (same.symm.trans ht) hs
      · exact ⟨ready, rfl, hd⟩
      · simp [ht] at ready
      · simp [ht] at fault
    · rcases phase_cases_of_step hr hstep with same | ⟨-, -, done⟩ | ⟨hd, -⟩ | fault
      · simp [ht, hs] at same
      · simp [ht] at done
      · exact .inr hd
      · simp [ht] at fault

end Sys2Proof.Proofs
end

section
/-!
PROOFS. Hardware reset (70_reset_and_hazards.md R210, R220): what the step with `rst` asserted installs and what it keeps.
-/
namespace Sys2Proof.Proofs

open Sys2Proof.Machine Sys2Proof.Claims Sys2Proof.Laws

theorem initial_hardwareReset (s : State) : Initial (hardwareReset s) :=
  ⟨hardwareReset_h s, hardwareReset_count s, hardwareReset_buf s, hardwareReset_fill s, hardwareReset_phase s⟩

/-- Settles O2: with `rst` the step is hardware reset; out of FAULT, a next state needs `rst` (R186). -/
theorem hardwareResetInstallsInit : Obligations.HardwareResetInstallsInit := by
  constructor
  · intro s hr
    exact ⟨hardwareReset s, step_of_rst hr, initial_hardwareReset s, hardwareReset_faultCode s, hardwareReset_pos s,
      hardwareReset_stream s⟩
  · intro s t fault hstep
    obtain ⟨leaves, -, -⟩ := onlyHardwareResetLeavesFault s fault
    obtain ⟨hr, -, -⟩ := leaves t hstep
    exact hr

/-- Settles O3: hardware reset writes neither list and clears `rst`. -/
theorem hardwareResetKeepsDelivered : Obligations.HardwareResetKeepsDelivered := fun s hr =>
  ⟨hardwareReset s, step_of_rst hr, hardwareReset_out s, hardwareReset_pending s, hardwareReset_rst s⟩

end Sys2Proof.Proofs
end
